-- ==== Sys2Proof/Config.lean ====
section
/-! DEFINITION. The three implementation parameters of the core (R8) and the constants derived from them (R9). They are
the only thing the spec leaves open, and every statement about the model holds for all of them. -/

namespace Sys2Proof

/-- The parameters of R8: `SYM_W`, `CNT_W` and `BBCAP`, constant for the life of the core. -/
structure Config where
  symW  : Nat
  cntW  : Nat
  bbCap : Nat
deriving DecidableEq, Repr

namespace Config

/-- The ranges R8 gives the parameters. -/
abbrev Ok (c : Config) : Prop :=
  1 ≤ c.symW ∧ c.symW ≤ 21 ∧ 1 ≤ c.cntW ∧ c.cntW ≤ 32 ∧ 1 ≤ c.bbCap ∧ c.bbCap ≤ 67108864

/-- The reference configuration of R8: SYM_W = 8, CNT_W = 32, BBCAP = 2^20. -/
def ref : Config := { symW := 8, cntW := 32, bbCap := 1048576 }

/-- `SENT` (R9): the symbol identifier of the sentinel. -/
def sent (c : Config) : Nat := 2 ^ c.symW

/-- `NSYM` (R9): the number of symbol identifiers. -/
def nsym (c : Config) : Nat := 2 ^ c.symW + 1

/-- `NNODE_MAX` (R9): the number of entries of the node memory. -/
def nnodeMax (c : Config) : Nat := 2 * c.nsym - 1

/-- `NIDX_W` (R9): the width of a node index. -/
def nidxW (c : Config) : Nat := c.symW + 2

/-- `WT_W` (R9): the width of a node weight. -/
def wtW (c : Config) : Nat := c.cntW + c.symW + 1

/-- `MAXLEN` (R9): the greatest possible code length. -/
def maxLen (c : Config) : Nat := c.nsym - 1

/-- The greatest count an entry of FT holds, `2^CNT_W - 1` (R101). -/
def cntMax (c : Config) : Nat := 2 ^ c.cntW - 1

end Config

end Sys2Proof
end

