-- ==== Sys2Proof/Word.lean ====
section
/-! DEFINITION. The word types of the HTC core: a command or response word has 32 numbered bits (R10, R55, R71),
a packed byte 8 (R53), and a bitstring is a finite sequence of bits, the first bit first (R11). -/

namespace Sys2Proof

/-- A command word or response value (R71, R86). -/
abbrev Word := BitVec 32

/-- One byte of a PackedStream (R56). -/
abbrev Byte := BitVec 8

/-- A bitstring (R11): element 0 is the first bit; it is not an integer and leading zeros count. -/
abbrev Bits := List Bool

end Sys2Proof
end

