-- ==== Sys2Proof/Syntax.lean ====
section
/-! DEFINITION. The 18 commands of the opcode map (R76), each with the operand fields of its format (R72, R78). -/

namespace Sys2Proof

/-- A command. An operand has exactly the width of its field, so a field's value is never out of the field's range;
what R74 step 3 further asks of an operand is in `Instr.wf` and `Instr.legal`. -/
inductive Instr where
  /-- `NOP` (R170), format N. -/
  | nop
  /-- `CSRR reg` (R171), format R: `addr = w[3:0]`. -/
  | csrr (addr : BitVec 4)
  /-- `CSRW reg, value` (R172), format W: `addr = w[25:22]`, `value = w[21:0]`. -/
  | csrw (addr : BitVec 4) (value : BitVec 22)
  /-- `SRST` (R173), format N. -/
  | srst
  /-- `FCLR` (R100), format N. -/
  | fclr
  /-- `FSYM sym` (R101), format S: `S = w[21]`, `char = w[20:0]`. -/
  | fsym (S : Bool) (char : BitVec 21)
  /-- `FRD sym` (R102), format S. -/
  | frd (S : Bool) (char : BitVec 21)
  /-- `BUILD` (R111), format N. -/
  | build
  /-- `DERIVE` (R121), format N. -/
  | derive
  /-- `ESYM sym` (R131), format S. -/
  | esym (S : Bool) (char : BitVec 21)
  /-- `DRUN` (R141), format N. -/
  | drun
  /-- `DEND` (R143), format N. -/
  | dend
  /-- `BCLR` (R150), format N. -/
  | bclr
  /-- `BPUT "bits"` (R151), format L: `n = w[20:16]`, `bits = w[15:0]`. -/
  | bput (n : BitVec 5) (bits : BitVec 16)
  /-- `BGET idx` (R152), format I: `idx = w[25:0]`. -/
  | bget (idx : BitVec 26)
  /-- `PACK` (R153), format N. -/
  | pack
  /-- `UBYTE byte` (R157), format B: `byte = w[7:0]`. -/
  | ubyte (byte : Byte)
  /-- `UEND` (R158), format N. -/
  | uend
deriving DecidableEq, Repr

/-- The mnemonic of a command, as the opcode map spells it (R76). -/
def Instr.mnemonic : Instr → String
  | .nop => "NOP"
  | .csrr _ => "CSRR"
  | .csrw _ _ => "CSRW"
  | .srst => "SRST"
  | .fclr => "FCLR"
  | .fsym _ _ => "FSYM"
  | .frd _ _ => "FRD"
  | .build => "BUILD"
  | .derive => "DERIVE"
  | .esym _ _ => "ESYM"
  | .drun => "DRUN"
  | .dend => "DEND"
  | .bclr => "BCLR"
  | .bput _ _ => "BPUT"
  | .bget _ => "BGET"
  | .pack => "PACK"
  | .ubyte _ => "UBYTE"
  | .uend => "UEND"

end Sys2Proof
end

