-- ==== Sys2Proof/WellFormed.lean ====
section
/-! DEFINITION. The operand constraints of R74 step 3: `Instr.wf` holds those that depend on the command word and the
configuration, `Instr.legal` adds the one that depends on the state (`BGET`: idx < BBLEN). The meanings test the same
constraints themselves, each as the pseudocode of its rule does, and raise IllegalCommand where one fails. -/

namespace Sys2Proof

/-- `symid(f)` does not fail (R73): the sentinel has S = 1 and char = 0, a character S = 0 and char < 2^SYM_W. -/
def symbolOk (c : Config) (S : Bool) (char : BitVec 21) : Bool :=
  if S then char == 0#21 else decide (char.toNat < 2 ^ c.symW)

/-- `CSRW`: addr is 0x3 with value 0, or 0x6 with value < 2^SYM_W (R74, R172). -/
def csrWriteOk (c : Config) (addr : BitVec 4) (value : BitVec 22) : Bool :=
  (addr == 0x3#4 && value == 0#22) || (addr == 0x6#4 && decide (value.toNat < 2 ^ c.symW))

/-- `BPUT`: n ≤ 16 and bits[15:n] = 0 (R74, R151). -/
def literalOk (n : BitVec 5) (bits : BitVec 16) : Bool :=
  decide (n.toNat ≤ 16) && decide (bits.toNat < 2 ^ n.toNat)

/-- The operand constraints that depend on the command word and the configuration (R74 step 3). -/
def Instr.wf (c : Config) : Instr → Bool
  | .csrr addr => decide (addr.toNat ≤ 0xD)
  | .csrw addr value => csrWriteOk c addr value
  | .fsym S char => symbolOk c S char
  | .frd S char => symbolOk c S char
  | .esym S char => symbolOk c S char
  | .bput n bits => literalOk n bits
  | .nop => true
  | .srst => true
  | .fclr => true
  | .build => true
  | .derive => true
  | .drun => true
  | .dend => true
  | .bclr => true
  | .bget _ => true
  | .pack => true
  | .ubyte _ => true
  | .uend => true

/-- All the operand constraints of R74 step 3, `bblen` being BBLEN. -/
def Instr.legal (c : Config) (bblen : Nat) : Instr → Bool
  | .bget idx => decide (idx.toNat < bblen)
  | i => i.wf c

end Sys2Proof
end

