-- ==== Sys2Proof/Decode.lean ====
section
/-! DEFINITION. Decoding a command word (R74 steps 1 and 2, in the order given) and encoding a command (R71, R72, R76),
with the opcode map's mask-and-match table (R75, R76). The operand constraints of R74 step 3 are `Instr.legal`; the
meanings test them (notes/assumptions/7.md). -/

namespace Sys2Proof

/-- Why a word selects no command (R74 steps 1 and 2). Both are IllegalCommand to the core (R77). -/
inductive Reject where
  /-- Step 1: no row of R76 has the opcode. -/
  | unassignedOpcode (op : BitVec 6)
  /-- Step 2: a "zero" field of the row's format is not 0. -/
  | nonzeroField (op : BitVec 6)
deriving DecidableEq, Repr

/-- `op = w[31:26]` (R71). -/
def opcode (w : Word) : BitVec 6 := w.extractLsb' 26 6

/-- Format N (R72): [25:0] zero. -/
def formatN (w : Word) (i : Instr) : Except Reject Instr :=
  if w.extractLsb' 0 26 = 0#26 then .ok i else .error (.nonzeroField (opcode w))

/-- Format S (R72): [25:22] zero; [21] `S`; [20:0] `char`. -/
def formatS (w : Word) (mk : Bool → BitVec 21 → Instr) : Except Reject Instr :=
  if w.extractLsb' 22 4 = 0#4 then .ok (mk (w.getLsbD 21) (w.extractLsb' 0 21)) else .error (.nonzeroField (opcode w))

/-- Format R (R72): [25:4] zero; [3:0] `addr`. -/
def formatR (w : Word) (mk : BitVec 4 → Instr) : Except Reject Instr :=
  if w.extractLsb' 4 22 = 0#22 then .ok (mk (w.extractLsb' 0 4)) else .error (.nonzeroField (opcode w))

/-- Format W (R72): [25:22] `addr`; [21:0] `value`. -/
def formatW (w : Word) (mk : BitVec 4 → BitVec 22 → Instr) : Except Reject Instr :=
  .ok (mk (w.extractLsb' 22 4) (w.extractLsb' 0 22))

/-- Format L (R72): [25:21] zero; [20:16] `n`; [15:0] `bits`. -/
def formatL (w : Word) (mk : BitVec 5 → BitVec 16 → Instr) : Except Reject Instr :=
  if w.extractLsb' 21 5 = 0#5 then .ok (mk (w.extractLsb' 16 5) (w.extractLsb' 0 16)) else .error (.nonzeroField (opcode w))

/-- Format I (R72): [25:0] `idx`. -/
def formatI (w : Word) (mk : BitVec 26 → Instr) : Except Reject Instr :=
  .ok (mk (w.extractLsb' 0 26))

/-- Format B (R72): [25:8] zero; [7:0] `byte`. -/
def formatB (w : Word) (mk : Byte → Instr) : Except Reject Instr :=
  if w.extractLsb' 8 18 = 0#18 then .ok (mk (w.extractLsb' 0 8)) else .error (.nonzeroField (opcode w))

/-- Steps 1 and 2 of R74: the opcode selects a row of R76, and the row's "zero" fields are 0. -/
def decode (w : Word) : Except Reject Instr :=
  match opcode w with
  | 0x01#6 => formatN w .nop
  | 0x02#6 => formatR w .csrr
  | 0x03#6 => formatW w .csrw
  | 0x04#6 => formatN w .srst
  | 0x08#6 => formatN w .fclr
  | 0x09#6 => formatS w .fsym
  | 0x0A#6 => formatS w .frd
  | 0x10#6 => formatN w .build
  | 0x11#6 => formatN w .derive
  | 0x18#6 => formatS w .esym
  | 0x20#6 => formatN w .drun
  | 0x21#6 => formatN w .dend
  | 0x28#6 => formatN w .bclr
  | 0x29#6 => formatL w .bput
  | 0x2A#6 => formatI w .bget
  | 0x2B#6 => formatN w .pack
  | 0x2C#6 => formatB w .ubyte
  | 0x2D#6 => formatN w .uend
  | _ => .error (.unassignedOpcode (opcode w))

/-- A word of format N. -/
def wordN (op : BitVec 6) : Word := op ++ 0#26
/-- A word of format S. -/
def wordS (op : BitVec 6) (S : Bool) (char : BitVec 21) : Word := op ++ (0#4 ++ (BitVec.ofBool S ++ char))
/-- A word of format R. -/
def wordR (op : BitVec 6) (addr : BitVec 4) : Word := op ++ (0#22 ++ addr)
/-- A word of format W. -/
def wordW (op : BitVec 6) (addr : BitVec 4) (value : BitVec 22) : Word := op ++ (addr ++ value)
/-- A word of format L. -/
def wordL (op : BitVec 6) (n : BitVec 5) (bits : BitVec 16) : Word := op ++ (0#5 ++ (n ++ bits))
/-- A word of format I. -/
def wordI (op : BitVec 6) (idx : BitVec 26) : Word := op ++ idx
/-- A word of format B. -/
def wordB (op : BitVec 6) (byte : Byte) : Word := op ++ (0#18 ++ byte)

/-- The word of a command (R72, R76). -/
def encode : Instr → Word
  | .nop => wordN 0x01#6
  | .csrr addr => wordR 0x02#6 addr
  | .csrw addr value => wordW 0x03#6 addr value
  | .srst => wordN 0x04#6
  | .fclr => wordN 0x08#6
  | .fsym S char => wordS 0x09#6 S char
  | .frd S char => wordS 0x0A#6 S char
  | .build => wordN 0x10#6
  | .derive => wordN 0x11#6
  | .esym S char => wordS 0x18#6 S char
  | .drun => wordN 0x20#6
  | .dend => wordN 0x21#6
  | .bclr => wordN 0x28#6
  | .bput n bits => wordL 0x29#6 n bits
  | .bget idx => wordI 0x2A#6 idx
  | .pack => wordN 0x2B#6
  | .ubyte byte => wordB 0x2C#6 byte
  | .uend => wordN 0x2D#6

/-- R74 whole: the word selects a command and its operands are legal, `bblen` being BBLEN. -/
def legalWord (c : Config) (bblen : Nat) (w : Word) : Bool :=
  match decode w with
  | .ok i => i.legal c bblen
  | .error _ => false

/-- One row of the opcode map (R76): a word selects the row when `w & mask = pattern` (R75). -/
structure Row where
  mnemonic : String
  pattern  : Word
  mask     : Word
deriving DecidableEq, Repr

/-- The opcode map (R76), the columns `mnemonic`, `match` and `mask`. -/
def opcodeMap : List Row :=
  [ ⟨"NOP",    0x04000000#32, 0xFFFFFFFF#32⟩,
    ⟨"CSRR",   0x08000000#32, 0xFFFFFFF0#32⟩,
    ⟨"CSRW",   0x0C000000#32, 0xFC000000#32⟩,
    ⟨"SRST",   0x10000000#32, 0xFFFFFFFF#32⟩,
    ⟨"FCLR",   0x20000000#32, 0xFFFFFFFF#32⟩,
    ⟨"FSYM",   0x24000000#32, 0xFFC00000#32⟩,
    ⟨"FRD",    0x28000000#32, 0xFFC00000#32⟩,
    ⟨"BUILD",  0x40000000#32, 0xFFFFFFFF#32⟩,
    ⟨"DERIVE", 0x44000000#32, 0xFFFFFFFF#32⟩ ] ++
  [ ⟨"ESYM",   0x60000000#32, 0xFFC00000#32⟩,
    ⟨"DRUN",   0x80000000#32, 0xFFFFFFFF#32⟩,
    ⟨"DEND",   0x84000000#32, 0xFFFFFFFF#32⟩,
    ⟨"BCLR",   0xA0000000#32, 0xFFFFFFFF#32⟩,
    ⟨"BPUT",   0xA4000000#32, 0xFFE00000#32⟩,
    ⟨"BGET",   0xA8000000#32, 0xFC000000#32⟩,
    ⟨"PACK",   0xAC000000#32, 0xFFFFFFFF#32⟩,
    ⟨"UBYTE",  0xB0000000#32, 0xFFFFFF00#32⟩,
    ⟨"UEND",   0xB4000000#32, 0xFFFFFFFF#32⟩ ]

/-- The decoder on a word whose bits are numbered as the opcode table numbers them. Every command is one 32-bit word
with numbered bits and no byte order (R55, R71), so the bits are the word. -/
def decodeTableWord (nbits w : Nat) : Option Instr :=
  match decode (BitVec.ofNat 32 (w % 2 ^ nbits)) with
  | .ok i => some i
  | .error _ => none

end Sys2Proof
end

