-- ==== Sys2Proof/Machine/State.lean ====
section
/-! DEFINITION. The state of the HTC core (R22), what the host presents to it and what it answers, its reset value
(R48), and the reasons a step can stop. -/

namespace Sys2Proof.Machine

/-- A bounded store indexed 0, 1, 2, …, kept sparse: the entries that do not hold the store's reset value, indices
strictly rising (notes/assumptions/8.md). An index not listed reads the reset value, which is 0 for FT (R24) and the empty
code for CT (R28). -/
abbrev Store (α : Type) := List (Nat × α)

/-- One entry of the node memory NM (R25): the six fields of the record. -/
structure Node where
  /-- `K`: false = leaf, true = internal node. -/
  k   : Bool
  /-- `PH`: a phantom leaf. -/
  ph  : Bool
  /-- `W`: the weight. -/
  w   : Nat
  /-- `SYM`: the SymId of a real leaf. -/
  sym : Nat
  /-- `L`: the node index of the left child. -/
  l   : Nat
  /-- `R`: the node index of the right child. -/
  r   : Nat
deriving DecidableEq, Repr

/-- The all-zero record (R25, R115). -/
def Node.zero : Node := { k := false, ph := false, w := 0, sym := 0, l := 0, r := 0 }

/-- The state of the unpacker (R30). -/
inductive Ust where
  /-- 0: a header byte is expected next. -/
  | hdr
  /-- 1: a header byte has been accepted and data bytes are expected. -/
  | data
deriving DecidableEq, Repr

/-- The fault causes (R180). -/
inductive Cause where
  | emptyInput
  | unknownSymbol
  | uninitializedCode
  | malformedStream
  /-- Never raised by the core (R185). -/
  | ioError
  | capacityExceeded
  | illegalCommand
deriving DecidableEq, Repr

/-- A stream item of a response sequence (R86). -/
inductive Item where
  | byte (v : Byte)
  /-- The 22-bit symbol word {S, char} of R88. -/
  | sym (v : BitVec 22)
deriving DecidableEq, Repr

/-- The terminal response of a command (R86). -/
inductive Terminal where
  | done
  | value (v : Word)
  | err (c : Cause)
deriving DecidableEq, Repr

/-- What one command answered: its response sequence, zero or more stream items followed by exactly one terminal (R85);
or, for a command abandoned by reset, the items transferred before the reset and no terminal (R201). -/
inductive Reply where
  | answered (items : List Item) (t : Terminal)
  | abandoned (items : List Item)
deriving DecidableEq, Repr

/-- What the host presents (R213), at the level of transferred words (notes/assumptions/14.md). -/
inductive HostEvent where
  /-- A command word (R70). -/
  | cmd (w : Word)
  /-- Reset between commands (R200). -/
  | rst
  /-- Reset while the command word `w` is in progress, after at most `k` of its stream items (R201). -/
  | rstDuring (w : Word) (k : Nat)
deriving DecidableEq, Repr

/-- The whole architectural state (R22), after it the response sequences answered so far and the host's input still to
come, and the implementation parameters, which no step changes (notes/assumptions/1.md, 2.md, 4.md). BBLEN is `bb.length`
(R29; notes/assumptions/11.md); counts, indices and lengths are naturals, their widths bounds of the invariant
(notes/assumptions/10.md). -/
structure State where
  cfg     : Config
  /-- FT (R24). -/
  ft      : Store Nat
  /-- NM (R25): entries 0, 1, …; an entry past the list is the all-zero record. -/
  nm      : List Node
  /-- NLEAF (R26). -/
  nleaf   : Nat
  /-- NNODE (R26). -/
  nnode   : Nat
  /-- ROOT (R26). -/
  root    : Nat
  /-- TREE (R27). -/
  tree    : Bool
  /-- CODES (R27). -/
  codes   : Bool
  /-- CT (R28): the code BITS of each symbol; LEN is its length. -/
  ct      : Store Bits
  /-- BB (R29). -/
  bb      : Bits
  /-- UST (R30). -/
  ust     : Ust
  /-- PAD (R30). -/
  pad     : BitVec 3
  /-- UDAT (R30). -/
  udat    : Bool
  /-- DPTR (R31). -/
  dptr    : Nat
  /-- ECAUSE (R32). -/
  ecause  : BitVec 4
  /-- EINFO (R32). -/
  einfo   : Word
  /-- EOLCHAR (R33), in the 21 bits of the `char` field of a symbol word (notes/assumptions/11.md). -/
  eolchar : BitVec 21
  /-- CMDSEQ (R34). -/
  cmdseq  : BitVec 32
  /-- What the host presents, in order (R4, R70). -/
  input   : List HostEvent
  /-- The response sequences so far, in order (R62, R214). -/
  out     : List Reply
deriving DecidableEq, Repr

/-- The state after reset of a core with parameters `c` (R48, R200), with nothing presented and nothing answered. -/
def State.resetOf (c : Config) : State :=
  { cfg := c, ft := [], nm := [], nleaf := 0, nnode := 0, root := 0, tree := false, codes := false, ct := [], bb := [],
    ust := .hdr, pad := 0, udat := false, dptr := 0, ecause := 0, einfo := 0,
    eolchar := BitVec.ofNat 21 (0x0A % 2 ^ c.symW), cmdseq := 0, input := [], out := [] }

/-- The machine right after reset, in the reference configuration of R8 (notes/assumptions/1.md). -/
def State.reset : State := State.resetOf Config.ref

/-- Reasons the machine stops with a fault: none. Every fault of the spec is a next state, with the fault record written
and an ERR terminal answered (R188, R190, R199), so no command stops the core (notes/assumptions/12.md). -/
inductive Fault
deriving DecidableEq, Repr

/-- Reasons a step is refused. -/
inductive Refusal where
  /-- Raised by `exec`'s arm of a command that has no meaning yet; no arm does. Safe: the machine stops where the core
  goes on. -/
  | notModelled (mnemonic : String)
deriving DecidableEq, Repr

/-- The outcome of a command. -/
abbrev Result := Host.Outcome State Fault Refusal

end Sys2Proof.Machine
end

