-- ==== Sys2Proof/Machine/Ops.lean ====
section
/-! DEFINITION. The named operations over the stores and the state that the meanings share: reading and writing a store,
reading a node, ending a command (R90 step 5), taking a fault (R188) and resetting (R48). -/

namespace Sys2Proof.Machine

/-- The entry of a store at index `k`; `d` is what an index not listed reads. -/
def Store.get {α : Type} (d : α) : Store α → Nat → α
  | [], _ => d
  | (i, v) :: rest, k => if i = k then v else Store.get d rest k

/-- A store with entry `k` holding `v`, in canonical form: an entry that holds `d` is not listed. -/
def Store.set {α : Type} [DecidableEq α] (d : α) : Store α → Nat → α → Store α
  | [], k, v => if v = d then [] else [(k, v)]
  | (i, u) :: rest, k, v =>
    if k < i then (if v = d then (i, u) :: rest else (k, v) :: (i, u) :: rest)
    else if k = i then (if v = d then rest else (k, v) :: rest)
    else (i, u) :: Store.set d rest k v

/-- The canonical form of a store of `n` entries: indices strictly rising and below `n`, no entry equal to `d`. -/
abbrev Store.wf {α : Type} (d : α) (n : Nat) (st : Store α) : Prop :=
  st.Pairwise (fun a b => a.1 < b.1) ∧ ∀ e ∈ st, e.1 < n ∧ e.2 ≠ d

/-- FT[id] (R24). -/
def State.count (s : State) (id : Nat) : Nat := Store.get 0 s.ft id

/-- CT[id].BITS (R28); CT[id].LEN is its length. -/
def State.code (s : State) (id : Nat) : Bits := Store.get [] s.ct id

/-- NM[i] (R25), in a node memory; an entry not listed is the all-zero record. -/
def nodeAt (nm : List Node) (i : Nat) : Node := nm.getD i Node.zero

/-- NM[i] (R25). -/
def State.node (s : State) (i : Nat) : Node := nodeAt s.nm i

/-- The numeric cause codes (R180). -/
def Cause.code : Cause → BitVec 4
  | .emptyInput => 1
  | .unknownSymbol => 2
  | .uninitializedCode => 3
  | .malformedStream => 4
  | .ioError => 5
  | .capacityExceeded => 6
  | .illegalCommand => 7

/-- A command has ended: CMDSEQ counts it modulo 2^32 (R34, R90 step 5) and its response sequence is answered (R85). -/
def State.answer (s : State) (items : List Item) (t : Terminal) : State :=
  { s with cmdseq := s.cmdseq + 1, out := s.out ++ [.answered items t] }

/-- The fault record of cause `c` on command word `w` (R188). -/
def State.recordFault (s : State) (c : Cause) (w : Word) : State :=
  { s with ecause := c.code, einfo := w }

/-- A command ends without a fault (R90 step 5). -/
def complete (s : State) (items : List Item) (t : Terminal) : Result :=
  .next (s.answer items t)

/-- Taking a fault (R188, R189): ECAUSE, EINFO and CMDSEQ change and the terminal is ERR; nothing else changes and the
core takes the next command (R190). `items` are those emitted before the raise, void under ERR (R89, R90;
notes/assumptions/13.md); `w` is the command word (notes/assumptions/6.md). -/
def raiseAfter (s : State) (items : List Item) (c : Cause) (w : Word) : Result :=
  .next ((s.recordFault c w).answer items (.err c))

/-- Taking a fault before any stream item. -/
def raise (s : State) (c : Cause) (w : Word) : Result :=
  raiseAfter s [] c w

/-- Every state element at its reset value (R48, R200). The parameters are not state; the host's input and the replies it
already has are the host's (R22). -/
def State.cleared (s : State) : State :=
  { State.resetOf s.cfg with input := s.input, out := s.out }

/-- Appending to BB when the result fits in BBCAP; the comparison is exact (R92 row 6, R191). -/
def State.append (s : State) (bits : Bits) : Option State :=
  if s.bb.length + bits.length > s.cfg.bbCap then none else some { s with bb := s.bb ++ bits }

end Sys2Proof.Machine
end

