-- ==== Sys2Proof/Machine/Operands.lean ====
section
/-! DEFINITION. Every operand form of the command words (R72, R73, R78), the bit order of packed bytes (R53) and the
symbol word of a SYM item (R88). -/

namespace Sys2Proof.Machine

/-- `symid` (R73): the SymId a symbol operand names, or none where the operand is not a symbol. -/
def symid (c : Config) (S : Bool) (char : BitVec 21) : Option Nat :=
  if S then
    if char = 0#21 then some c.sent else none
  else
    if char.toNat < 2 ^ c.symW then some char.toNat else none

/-- The low `n` bits of `v`, most significant first: [v[n-1], …, v[0]]. -/
def bitsMsbFirst : Nat → Nat → Bits
  | 0, _ => []
  | n + 1, v => v.testBit n :: bitsMsbFirst n v

/-- The bitstring operand of format L (R78), or none where n > 16 or a bit of bits[15:n] is set (R74). -/
def literal (n : BitVec 5) (bits : BitVec 16) : Option Bits :=
  if n.toNat ≤ 16 ∧ bits.toNat < 2 ^ n.toNat then some (bitsMsbFirst n.toNat bits.toNat) else none

/-- The eight bits of a byte in stream order: byte[7], …, byte[0] (R53). -/
def byteBits (b : Byte) : Bits := bitsMsbFirst 8 b.toNat

/-- The unsigned value of a bit sequence, first bit most significant (R53). -/
def bitsValue (g : Bits) : Nat := g.foldl (fun acc b => 2 * acc + b.toNat) 0

/-- The bytes of a bitstring whose length is a multiple of 8: `g[0]` of each group of eight becomes bit 7 (R53, R54). -/
def packedBytes : Bits → List Byte
  | b0 :: b1 :: b2 :: b3 :: b4 :: b5 :: b6 :: b7 :: rest =>
    BitVec.ofNat 8 (bitsValue [b0, b1, b2, b3, b4, b5, b6, b7]) :: packedBytes rest
  | _ => []

/-- `padding = (8 - len mod 8) mod 8` (R57). -/
def padding (len : Nat) : Nat := (8 - len % 8) % 8

/-- `symword(id)` (R88): a character keeps its code with S = 0; the sentinel has S = 1 and EOLCHAR as its character. -/
def symword (c : Config) (eolchar : BitVec 21) (id : Nat) : BitVec 22 :=
  if id = c.sent then 1#1 ++ eolchar else 0#1 ++ BitVec.ofNat 21 id

end Sys2Proof.Machine
end

