-- ==== Sys2Proof/Machine/BitPacker.lean ====
section
/-! DEFINITION. The bit buffer and bit-packer BCLR, BPUT, BGET, PACK, UBYTE, UEND (spec/45_bitpacker.md). -/

namespace Sys2Proof.Machine

/-- `BCLR` (R150). -/
def execBclr (s : State) : Result :=
  complete { s with bb := [], ust := .hdr, udat := false, pad := 0, dptr := if s.tree then s.root else 0 } [] .done

/-- `BPUT "bits"` (R151). -/
def execBput (n : BitVec 5) (bits : BitVec 16) (s : State) : Result :=
  match literal n bits with
  | none => raise s .illegalCommand (encode (.bput n bits))
  | some lit =>
    match s.append lit with
    | none => raise s .capacityExceeded (encode (.bput n bits))
    | some t => complete t [] .done

/-- `BGET idx` (R152). -/
def execBget (idx : BitVec 26) (s : State) : Result :=
  match s.bb[idx.toNat]? with
  | none => raise s .illegalCommand (encode (.bget idx))
  | some b => complete s [] (.value ((BitVec.ofBool b).setWidth 32))

/-- The BYTE items of `PACK` (R153): the header byte with the padding count, then the padded bitstring in bytes. -/
def packItems (bb : Bits) : List Item :=
  .byte (BitVec.ofNat 8 (padding bb.length)) ::
    (packedBytes (bb ++ List.replicate (padding bb.length) false)).map Item.byte

/-- `PACK` (R153). -/
def execPack (s : State) : Result :=
  complete { s with bb := [] } (packItems s.bb) .done

/-- `UBYTE byte` (R157): the header byte in state HDR, a data byte in state DATA. -/
def execUbyte (byte : Byte) (s : State) : Result :=
  match s.ust with
  | .hdr =>
    if byte.toNat > 7 then raise s .malformedStream (encode (.ubyte byte))
    else complete { s with pad := byte.setWidth 3, ust := .data, udat := false, bb := [] } [] .done
  | .data =>
    match s.append (byteBits byte) with
    | none => raise s .capacityExceeded (encode (.ubyte byte))
    | some t => complete { t with udat := true } [] .done

/-- `UEND` (R158): the last PAD bits of BB are removed; the subtraction saturates at 0 (R92 row 11). -/
def execUend (s : State) : Result :=
  match s.ust with
  | .hdr => raise s .malformedStream (encode .uend)
  | .data =>
    if s.pad ≠ 0#3 ∧ s.udat = false then raise s .malformedStream (encode .uend)
    else complete { s with bb := s.bb.take (s.bb.length - s.pad.toNat), ust := .hdr, udat := false } [] .done

end Sys2Proof.Machine
end

