-- ==== Sys2Proof/Machine/Decoder.lean ====
section
/-! DEFINITION. The decoder DRUN, DEND (spec/44_decode.md). -/

namespace Sys2Proof.Machine

/-- The child a bit selects: 0 → left, 1 → right (R141). -/
def State.child (s : State) (p : Nat) (b : Bool) : Nat :=
  if b then (s.node p).r else (s.node p).l

/-- The loop of `DRUN` (R141) from the working pointer `p`: the items emitted, and the pointer after the last bit, or none
where the walk reached a phantom leaf. -/
def State.walk (s : State) : Bits → Nat → List Item × Option Nat
  | [], p => ([], some p)
  | b :: bs, p =>
    let q := s.child p b
    if (s.node q).k then s.walk bs q
    else if (s.node q).ph then ([], none)
    else
      let rest := s.walk bs s.root
      (.sym (symword s.cfg s.eolchar (s.node q).sym) :: rest.1, rest.2)

/-- `DRUN` (R141): on success DPTR is where the walk stands and BB is empty; on a fault both keep their values, and the
items already emitted are void. -/
def execDrun (s : State) : Result :=
  if s.codes = false then raise s .uninitializedCode (encode .drun)
  else
    match s.walk s.bb s.dptr with
    | (items, none) => raiseAfter s items .malformedStream (encode .drun)
    | (items, some p) => complete { s with dptr := p, bb := [] } items .done

/-- `DEND` (R143). -/
def execDend (s : State) : Result :=
  if s.codes = false then raise s .uninitializedCode (encode .dend)
  else if s.dptr ≠ s.root then raise s .malformedStream (encode .dend)
  else complete s [] .done

end Sys2Proof.Machine
end

