-- ==== Sys2Proof/Machine/Encoder.lean ====
section
/-! DEFINITION. The encoder ESYM (spec/43_encode.md). -/

namespace Sys2Proof.Machine

/-- `ESYM sym` (R131), the faults tested in the order of R187. -/
def execEsym (S : Bool) (char : BitVec 21) (s : State) : Result :=
  match symid s.cfg S char with
  | none => raise s .illegalCommand (encode (.esym S char))
  | some id =>
    if s.codes = false then raise s .uninitializedCode (encode (.esym S char))
    else if (s.code id).length = 0 then raise s .unknownSymbol (encode (.esym S char))
    else
      match s.append (s.code id) with
      | none => raise s .capacityExceeded (encode (.esym S char))
      | some t => complete t [] .done

end Sys2Proof.Machine
end

