-- ==== Sys2Proof/Machine/Frequency.lean ====
section
/-! DEFINITION. The frequency counter FCLR, FSYM, FRD (spec/41_frequency.md). -/

namespace Sys2Proof.Machine

/-- `FCLR` (R100): every entry of FT is 0. -/
def execFclr (s : State) : Result :=
  complete { s with ft := [] } [] .done

/-- `FSYM sym` (R101): the count of the symbol grows by 1; at 2^CNT_W - 1 it keeps its value. -/
def execFsym (S : Bool) (char : BitVec 21) (s : State) : Result :=
  match symid s.cfg S char with
  | none => raise s .illegalCommand (encode (.fsym S char))
  | some id =>
    if s.count id = s.cfg.cntMax then raise s .capacityExceeded (encode (.fsym S char))
    else complete { s with ft := Store.set 0 s.ft id (s.count id + 1) } [] .done

/-- `FRD sym` (R102). -/
def execFrd (S : Bool) (char : BitVec 21) (s : State) : Result :=
  match symid s.cfg S char with
  | none => raise s .illegalCommand (encode (.frd S char))
  | some id => complete s [] (.value (BitVec.ofNat 32 (s.count id)))

end Sys2Proof.Machine
end

