-- ==== Sys2Proof/Machine/Flags.lean ====
section
/-! DEFINITION. The status flags (R23, R38) and the control-register space as `CSRR` reads it (R35 to R46, R171). -/

namespace Sys2Proof.Machine

/-- UST as a bit (R30). -/
def Ust.bit : Ust → Bool
  | .hdr => false
  | .data => true

/-- DMID (R38): TREE = 1 and DPTR ≠ ROOT. It is not a stored bit. -/
def State.dmid (s : State) : Bool := s.tree && decide (s.dptr ≠ s.root)

/-- STATUS (R38): DMID<<4 | UDAT<<3 | UST<<2 | CODES<<1 | TREE. -/
def State.statusWord (s : State) : Word :=
  0#27 ++ BitVec.ofBool s.dmid ++ BitVec.ofBool s.udat ++ BitVec.ofBool s.ust.bit ++ BitVec.ofBool s.codes ++
    BitVec.ofBool s.tree

/-- CFG (R37): CNT_W<<5 | SYM_W. -/
def cfgWord (c : Config) : Word := BitVec.ofNat 32 (c.cntW * 32 + c.symW)

/-- `csr_read` (R171): the value of a control register, zero-extended to 32 bits; none for the reserved addresses 0xE
and 0xF (R46). -/
def State.csrRead (s : State) (addr : BitVec 4) : Option Word :=
  match addr.toNat with
  | 0x0 => some 0x48544301#32
  | 0x1 => some (cfgWord s.cfg)
  | 0x2 => some s.statusWord
  | 0x3 => some (s.ecause.setWidth 32)
  | 0x4 => some s.einfo
  | 0x5 => some s.cmdseq
  | 0x6 => some (s.eolchar.setWidth 32)
  | 0x7 => some (BitVec.ofNat 32 s.cfg.bbCap)
  | 0x8 => some (BitVec.ofNat 32 s.bb.length)
  | 0x9 => some (s.pad.setWidth 32)
  | 0xA => some (BitVec.ofNat 32 s.nleaf)
  | 0xB => some (BitVec.ofNat 32 s.nnode)
  | 0xC => some (BitVec.ofNat 32 s.root)
  | 0xD => some (BitVec.ofNat 32 s.dptr)
  | _ => none

end Sys2Proof.Machine
end

