-- ==== Sys2Proof/Machine/System.lean ====
section
/-! DEFINITION. The system commands NOP, CSRR, CSRW, SRST (spec/46_system.md). -/

namespace Sys2Proof.Machine

/-- `NOP` (R170). -/
def execNop (s : State) : Result :=
  complete s [] .done

/-- `CSRR reg` (R171). -/
def execCsrr (addr : BitVec 4) (s : State) : Result :=
  match s.csrRead addr with
  | none => raise s .illegalCommand (encode (.csrr addr))
  | some v => complete s [] (.value v)

/-- `CSRW reg, value` (R172): ECAUSE takes only 0, EOLCHAR only a character code; every other address is read-only or
reserved. -/
def execCsrw (addr : BitVec 4) (value : BitVec 22) (s : State) : Result :=
  if addr = 0x3#4 then
    if value = 0#22 then complete { s with ecause := 0, einfo := 0 } [] .done
    else raise s .illegalCommand (encode (.csrw addr value))
  else if addr = 0x6#4 then
    if value.toNat < 2 ^ s.cfg.symW then complete { s with eolchar := value.setWidth 21 } [] .done
    else raise s .illegalCommand (encode (.csrw addr value))
  else raise s .illegalCommand (encode (.csrw addr value))

/-- `SRST` (R173): every state element takes its reset value, CMDSEQ included, and then DONE is answered. -/
def execSrst (s : State) : Result :=
  .next { s.cleared with out := s.out ++ [.answered [] .done] }

end Sys2Proof.Machine
end

