-- ==== Sys2Proof/Machine/Tree.lean ====
section
/-! DEFINITION. The tree builder and code deriver BUILD, DERIVE (spec/42_tree_build.md). -/

namespace Sys2Proof.Machine

/-- The present symbols in ascending SymId order, the sentinel last (R111, R112). -/
def present (c : Config) (ft : Store Nat) : List Nat :=
  (List.range c.nsym).filter fun id => decide (1 ≤ Store.get 0 ft id)

/-- The real leaf of a present symbol (R112). -/
def realLeaf (ft : Store Nat) (id : Nat) : Node :=
  { k := false, ph := false, w := Store.get 0 ft id, sym := id, l := 0, r := 0 }

/-- The phantom leaf of a one-symbol table (R113). -/
def phantomLeaf : Node := { k := false, ph := true, w := 0, sym := 0, l := 0, r := 0 }

/-- Steps 1 and 1b of `construct` (R112, R113): the real leaves, and the phantom leaf where there is exactly one. -/
def leaves (ft : Store Nat) (ids : List Nat) : List Node :=
  ids.map (realLeaf ft) ++ (if ids.length = 1 then [phantomLeaf] else [])

/-- The comparator of R116 on node indices: (W, index) in lexicographic order. -/
def before (nm : List Node) (i j : Nat) : Bool :=
  decide ((nodeAt nm i).w < (nodeAt nm j).w ∨ ((nodeAt nm i).w = (nodeAt nm j).w ∧ i < j))

/-- The index in `pq` that comes first by the comparator of R116. -/
def least (nm : List Node) : List Nat → Option Nat
  | [] => none
  | i :: rest =>
    match least nm rest with
    | none => some i
    | some j => if before nm i j then some i else some j

/-- `popmin` (R116): the least index of the queue and the queue without it. -/
def popmin (nm : List Node) (pq : List Nat) : Option (Nat × List Nat) :=
  match least nm pq with
  | none => none
  | some i => some (i, pq.erase i)

/-- The internal node made of the two nodes popped: the first is the left child, the second the right (R114). -/
def internalNode (nm : List Node) (a b : Nat) : Node :=
  { k := true, ph := false, w := (nodeAt nm a).w + (nodeAt nm b).w, sym := 0, l := a, r := b }

/-- At most `n` passes of the merge loop (R114), on the nodes allocated so far and the queue. A pass allocates the next
NM entry, whose index is the number of entries before it; the loop ends when fewer than two indices are queued. -/
def merge : Nat → List Node → List Nat → List Node × List Nat
  | 0, nm, pq => (nm, pq)
  | n + 1, nm, pq =>
    match popmin nm pq with
    | none => (nm, pq)
    | some (a, pq1) =>
      match popmin nm pq1 with
      | none => (nm, pq)
      | some (b, pq2) => merge n (nm ++ [internalNode nm a b]) (pq2 ++ [nm.length])

/-- What `construct` returns (R111). -/
structure Built where
  nm    : List Node
  nleaf : Nat
  nnode : Nat
  root  : Nat
deriving DecidableEq, Repr

/-- `construct(FT)` (R112 to R115), the present symbols being `ids`. The merge loop runs (number of leaves - 1) times
(R114); the root is the one index left in the queue (R115); entries past the last are all-zero. -/
def construct (ft : Store Nat) (ids : List Nat) : Built :=
  let lv := leaves ft ids
  let m := merge (lv.length - 1) lv (List.range lv.length)
  { nm := m.1, nleaf := ids.length, nnode := m.1.length, root := m.2.headD 0 }

/-- `visit` of R119: depth first, '0' to the left, '1' to the right, recording the path at each real leaf. The first
argument bounds the depth, which a tree never reaches (notes/assumptions/9.md). -/
def visit (nm : List Node) : Nat → Nat → Bits → Store Bits → Store Bits
  | 0, _, _, ct => ct
  | d + 1, i, path, ct =>
    if (nodeAt nm i).k then
      visit nm d (nodeAt nm i).r (path ++ [true]) (visit nm d (nodeAt nm i).l (path ++ [false]) ct)
    else if (nodeAt nm i).ph then ct
    else Store.set [] ct (nodeAt nm i).sym path

/-- `derive(NM, root)` (R119). -/
def derive (nm : List Node) (root : Nat) : Store Bits := visit nm nm.length root [] []

/-- What a successful `BUILD` writes (R111): the whole tree and code table, the flags, and the walk pointer. -/
def State.withTree (s : State) (t : Built) : State :=
  { s with nm := t.nm, nleaf := t.nleaf, nnode := t.nnode, root := t.root, ct := derive t.nm t.root,
           tree := true, codes := true, dptr := t.root }

/-- `BUILD` (R111): EmptyInput, before anything is written, when no symbol is present. -/
def execBuild (s : State) : Result :=
  if present s.cfg s.ft = [] then raise s .emptyInput (encode .build)
  else complete (s.withTree (construct s.ft (present s.cfg s.ft))) [] .done

/-- `DERIVE` (R121). -/
def execDerive (s : State) : Result :=
  if s.tree then complete { s with ct := derive s.nm s.root, codes := true } [] .done
  else raise s .uninitializedCode (encode .derive)

end Sys2Proof.Machine
end

