-- ==== Sys2Proof/Machine/Dispatch.lean ====
section
/-! DEFINITION. One arm per command: exec runs the meaning of a decoded command (R90 step 3). -/

namespace Sys2Proof.Machine

/-- The meaning of a command (R90 steps 3 to 5). -/
def exec (i : Instr) (s : State) : Host.Outcome State Fault Refusal :=
  match i with
  | .nop => Sys2Proof.Machine.execNop s
  | .csrr addr => Sys2Proof.Machine.execCsrr addr s
  | .csrw addr value => Sys2Proof.Machine.execCsrw addr value s
  | .srst => Sys2Proof.Machine.execSrst s
  | .fclr => Sys2Proof.Machine.execFclr s
  | .fsym S char => Sys2Proof.Machine.execFsym S char s
  | .frd S char => Sys2Proof.Machine.execFrd S char s
  | .build => Sys2Proof.Machine.execBuild s
  | .derive => Sys2Proof.Machine.execDerive s
  | .esym S char => Sys2Proof.Machine.execEsym S char s
  | .drun => Sys2Proof.Machine.execDrun s
  | .dend => Sys2Proof.Machine.execDend s
  | .bclr => Sys2Proof.Machine.execBclr s
  | .bput n bits => Sys2Proof.Machine.execBput n bits s
  | .bget idx => Sys2Proof.Machine.execBget idx s
  | .pack => Sys2Proof.Machine.execPack s
  | .ubyte byte => Sys2Proof.Machine.execUbyte byte s
  | .uend => Sys2Proof.Machine.execUend s

end Sys2Proof.Machine
end

