-- ==== Sys2Proof/Machine/Port.lean ====
section
/-! DEFINITION. What the host's reset does (R200, R201) and what the core does with a command word that decodes to no
command (R74, R77); `Step.lean` calls these (notes/assumptions/5.md). -/

namespace Sys2Proof.Machine

/-- A word that selects no command: IllegalCommand, and the command does nothing else (R74, R90 step 2). -/
def illegalWord (w : Word) (s : State) : Result :=
  raise s .illegalCommand w

/-- The reset input between commands (R200): every state element at its reset value; nothing is answered. -/
def resetInput (s : State) : Result :=
  .next s.cleared

/-- The stream items of a reply. -/
def Reply.items : Reply → List Item
  | .answered items _ => items
  | .abandoned items => items

/-- The reset input while a command is in progress (R201): of the command, whose outcome would have been `o`, at most `k`
stream items were transferred; its other items and its terminal are never produced, and nothing of it is in the state. -/
def resetDuring (k : Nat) (o : Result) (s : State) : Result :=
  match o with
  | .next t =>
    let items := ((t.out.drop s.out.length).flatMap Reply.items).take k
    .next { s.cleared with out := s.out ++ [.abandoned items] }
  | .fault f => .fault f
  | .refused r => .refused r

/-- The word of `nbits` bits numbered as the opcode table numbers them: a command word has one length and no byte order
(R55, R71). -/
def tableWord (nbits w : Nat) : Word := BitVec.ofNat 32 (w % 2 ^ nbits)

end Sys2Proof.Machine
end

