-- ==== Sys2Proof/Machine/Step.lean ====
section
/-! DEFINITION. The step (R90): the next thing the host presents is taken and carried out whole. -/

namespace Sys2Proof.Machine

/-- A command word is decoded and run (R90 steps 1 to 5). -/
def runWord (w : Word) (s : State) : Host.Outcome State Fault Refusal :=
  match decode w with
  | .error _ => illegalWord w s
  | .ok i => exec i s

/-- One step of the core on what the host presents next. With nothing presented the core is idle and keeps all its state
(R198; notes/assumptions/3.md). -/
def step (s : State) : Host.Outcome State Fault Refusal :=
  match s.input with
  | [] => .next s
  | .cmd w :: rest => runWord w { s with input := rest }
  | .rst :: rest => resetInput { s with input := rest }
  | .rstDuring w k :: rest => resetDuring k (runWord w { s with input := rest }) { s with input := rest }

/-- The host presents the word next, before anything else it has to present (R70; notes/assumptions/2.md). -/
def State.withFetchWord (s : State) (nbits w : Nat) : State :=
  { s with input := .cmd (tableWord nbits w) :: s.input }

end Sys2Proof.Machine
end

