-- ==== Sys2Proof/Machine/Assembler.lean ====
section
/-! DEFINITION. The pseudo-instructions of the assembler notation, each with its expansion (R80). -/

namespace Sys2Proof.Machine

/-- A pseudo-instruction (R80); the characters of a text are given by their codes. -/
inductive Pseudo where
  | feol
  | eeol
  | fline (text : List (BitVec 21))
  | eline (text : List (BitVec 21))
  | decode
  | unpack (bytes : List Byte)
  | errclr
deriving DecidableEq, Repr

/-- The commands a pseudo-instruction stands for (R80). -/
def Pseudo.expand : Pseudo → List Instr
  | .feol => [.fsym true 0]
  | .eeol => [.esym true 0]
  | .fline text => text.map (fun c => .fsym false c) ++ [.fsym true 0]
  | .eline text => text.map (fun c => .esym false c) ++ [.esym true 0]
  | .decode => [.drun, .dend]
  | .unpack bytes => bytes.map (fun b => .ubyte b) ++ [.uend]
  | .errclr => [.csrw 0x3 0]

end Sys2Proof.Machine
end

