-- ==== Sys2Proof/Machine/Responses.lean ====
section
/-! DEFINITION. The response words (R86): `rsp_kind[2:0]` and `rsp_data[31:0]` of each item and terminal. -/

namespace Sys2Proof.Machine

/-- A response as the response port carries it: (rsp_kind, rsp_data) (R85). -/
abbrev Response := BitVec 3 × Word

/-- The response of a stream item (R86). -/
def Item.response : Item → Response
  | .byte v => (2, v.setWidth 32)
  | .sym v => (3, v.setWidth 32)

/-- The response of a terminal (R86). -/
def Terminal.response : Terminal → Response
  | .done => (0, 0)
  | .value v => (1, v)
  | .err c => (7, c.code.setWidth 32)

/-- The responses of one command in the order the port carries them (R62, R85); of an abandoned command, the items
transferred before the reset (R201). -/
def Reply.responses : Reply → List Response
  | .answered items t => items.map Item.response ++ [t.response]
  | .abandoned items => items.map Item.response

/-- The output of a run: the concatenation of the response sequences (R214). -/
def State.responses (s : State) : List Response := s.out.flatMap Reply.responses

end Sys2Proof.Machine
end

