-- ==== Sys2Proof/Safety.lean ====
section
/-! DEFINITION. The terms in which claims about the core are stated: what a run without error is (R199), which items are
part of a result (R89), the tree that NM holds (R49) and the invariant of reachable states (R49). Nothing here is run by
`step`. -/

namespace Sys2Proof.Machine

/-- The commands one after another, each from the state the last one left (R62, R90). -/
def execAll : List Instr → State → Result
  | [], s => .next s
  | i :: rest, s =>
    match exec i s with
    | .next t => execAll rest t
    | .fault f => .fault f
    | .refused r => .refused r

/-- The terminal of a reply reports no fault: DONE or VALUE (R199). That a command abandoned by reset, which has no
terminal, does not count as ended without error is a DESIGN CHOICE (notes/assumptions/15.md). -/
def Reply.clean : Reply → Bool
  | .answered _ .done => true
  | .answered _ (.value _) => true
  | .answered _ (.err _) => false
  | .abandoned _ => false

/-- The stream items of a reply that are part of a result: those under a DONE terminal only (R89, R201). -/
def Reply.validItems : Reply → List Item
  | .answered items .done => items
  | .answered _ (.value _) => []
  | .answered _ (.err _) => []
  | .abandoned _ => []

/-- A run without error (R199): every command answered so far ended with DONE or VALUE, and none was abandoned by reset
(a DESIGN CHOICE, notes/assumptions/15.md). -/
def State.clean (s : State) : Bool := s.out.all Reply.clean

/-- Where a bitstring leads from node `i`, every node left being internal: 0 to the left child, 1 to the right (R119). -/
def follow (nm : List Node) : Nat → Bits → Option Nat
  | i, [] => some i
  | i, b :: p =>
    if (nodeAt nm i).k then follow nm (if b then (nodeAt nm i).r else (nodeAt nm i).l) p else none

/-- Node `i` is a real leaf that carries the symbol `id` (R16, R25). -/
abbrev IsLeafOf (nm : List Node) (i id : Nat) : Prop :=
  (nodeAt nm i).k = false ∧ (nodeAt nm i).ph = false ∧ (nodeAt nm i).sym = id

/-- Node `j` is a child of the internal node `i` (R25). -/
abbrev IsChildOf (nm : List Node) (j i : Nat) : Prop :=
  (nodeAt nm i).k = true ∧ ((nodeAt nm i).l = j ∨ (nodeAt nm i).r = j)

/-- Node `i` is in the queue when node `n` is made (R114): allocated before `n`, and popped for no node before `n`. -/
abbrev QueuedAt (nm : List Node) (n i : Nat) : Prop :=
  i < n ∧ ∀ m, m < n → ¬ IsChildOf nm i m

/-- Lower weight first; among equal weights, lower node index first (R116). -/
abbrev ComesBefore (nm : List Node) (i j : Nat) : Prop :=
  (nodeAt nm i).w < (nodeAt nm j).w ∨ ((nodeAt nm i).w = (nodeAt nm j).w ∧ i < j)

/-- A frequency table within its store (R24): canonical, every count at most 2^CNT_W - 1. -/
abbrev FtOk (c : Config) (ft : Store Nat) : Prop :=
  Store.wf 0 c.nsym ft ∧ ∀ e ∈ ft, e.2 ≤ c.cntMax

/-- NM, NLEAF, NNODE and ROOT hold what `BUILD` makes of some frequency table with a symbol present (R27, R111). -/
def HoldsBuiltTree (s : State) : Prop :=
  ∃ ft, FtOk s.cfg ft ∧ present s.cfg ft ≠ [] ∧
    construct ft (present s.cfg ft) = { nm := s.nm, nleaf := s.nleaf, nnode := s.nnode, root := s.root }

/-- The invariant of reachable states from which the items of R49 follow. -/
structure CoreInv (s : State) : Prop where
  /-- The parameters are in their ranges (R8). -/
  cfgOk    : s.cfg.Ok
  /-- FT is canonical and no count exceeds its width (R24). -/
  ftOk     : FtOk s.cfg s.ft
  /-- CT is canonical (R28). -/
  ctOk     : Store.wf [] s.cfg.nsym s.ct
  /-- R49 item 9. -/
  bbOk     : s.bb.length ≤ s.cfg.bbCap
  /-- EOLCHAR fits in SYM_W bits (R33). -/
  eolOk    : s.eolchar.toNat < 2 ^ s.cfg.symW
  /-- R49 item 10. -/
  causeOk  : s.ecause.toNat ≤ 7 ∧ s.ecause ≠ 5
  /-- R49 item 11. -/
  udatOk   : s.udat = true → s.ust = .data
  /-- R49 item 1. -/
  flagsOk  : s.tree = s.codes
  /-- While TREE = 0 the tree, the code table and the walk pointer are as after reset (R26, R49 item 7). -/
  noTree   : s.tree = false → s.nm = [] ∧ s.nleaf = 0 ∧ s.nnode = 0 ∧ s.root = 0 ∧ s.ct = [] ∧ s.dptr = 0
  /-- While TREE = 1, NM holds a built tree (R27). -/
  built    : s.tree = true → HoldsBuiltTree s
  /-- While TREE = 1, CT is the code table derived from NM (R27, R111, R121). -/
  derived  : s.tree = true → s.ct = derive s.nm s.root
  /-- R49 item 7: the walk pointer stands on an internal node. -/
  dptrOk   : s.tree = true → s.dptr < s.nnode ∧ (s.node s.dptr).k = true

/-- Every state element is at its reset value (R48); ID, CFG and BBCAP are constants of the configuration. -/
structure HasResetValues (s : State) : Prop where
  ft      : ∀ id, s.count id = 0
  nm      : ∀ i, s.node i = ⟨false, false, 0, 0, 0, 0⟩
  tree    : s.nleaf = 0 ∧ s.nnode = 0 ∧ s.root = 0 ∧ s.tree = false ∧ s.codes = false
  ct      : ∀ id, s.code id = []
  bb      : s.bb = []
  unpack  : s.ust = .hdr ∧ s.pad = 0 ∧ s.udat = false
  dptr    : s.dptr = 0
  fault   : s.ecause = 0 ∧ s.einfo = 0
  eolchar : s.cfg.Ok → s.eolchar.toNat = 0x0A % 2 ^ s.cfg.symW
  cmdseq  : s.cmdseq = 0
  consts  : s.csrRead 0x0 = some 0x48544301 ∧ s.csrRead 0x1 = some (BitVec.ofNat 32 (32 * s.cfg.cntW + s.cfg.symW)) ∧
              s.csrRead 0x7 = some (BitVec.ofNat 32 s.cfg.bbCap)

/-- The state after a command word `w` faulted with cause `c` (R188, R189), `items` being the void items before ERR. -/
def State.afterFault (s : State) (items : List Item) (c : Cause) (w : Word) : State :=
  { s with ecause := c.code, einfo := w, cmdseq := s.cmdseq + 1, out := s.out ++ [.answered items (.err c)] }

/-- Every word of opcode `op` with a bit set among the `width` bits from bit `lo` up, a "zero" field of its format, is
IllegalCommand (R74, R77). -/
def StrayBitsFault (op : BitVec 6) (lo width : Nat) : Prop :=
  ∀ (s : State) (w : Word), opcode w = op → w.extractLsb' lo width ≠ 0#width →
    runWord w s = .next (s.afterFault [] .illegalCommand w)

/-- The causes a command can raise (R194), by its mnemonic. -/
def mayRaise : Instr → Cause → Bool
  | _, .illegalCommand => true
  | .build, .emptyInput => true
  | .esym _ _, .unknownSymbol => true
  | .derive, .uninitializedCode => true
  | .esym _ _, .uninitializedCode => true
  | .drun, .uninitializedCode => true
  | .dend, .uninitializedCode => true
  | .drun, .malformedStream => true
  | .dend, .malformedStream => true
  | .ubyte _, .malformedStream => true
  | .uend, .malformedStream => true
  | .fsym _ _, .capacityExceeded => true
  | .esym _ _, .capacityExceeded => true
  | .bput _ _, .capacityExceeded => true
  | .ubyte _, .capacityExceeded => true
  | _, _ => false

end Sys2Proof.Machine
end

