-- ==== Sys2Proof/Certificates/Slice0/Obligations.lean ====
section
/-! DEFINITION. The statements about the HTC core, one per obligation; each docstring names the rules it formalises. -/

open Sys2Proof Sys2Proof.Machine

/-! Encoding and decoding. -/

/-- R71, R72, R76, R78: no bit of an encoding is dropped. -/
def Obligations.EncodedCommandDecodesToItself : Prop :=
  ∀ i : Instr, decode (encode i) = .ok i

/-- R71, R72, R74: a word that selects a command is that command's one encoding, so EINFO is the word (R188). -/
def Obligations.DecodedWordIsItsEncoding : Prop :=
  ∀ (w : Word) (i : Instr), decode w = .ok i → encode i = w

/-- R75: steps 1 and 2 of decoding in mask-and-match form, and no word matches two rows. -/
def Obligations.RowSelectedByMaskAndMatch : Prop :=
  (∀ (w : Word) (row : Row), row ∈ opcodeMap →
    (w &&& row.mask = row.pattern ↔ ∃ i, decode w = .ok i ∧ i.mnemonic = row.mnemonic)) ∧
  (∀ (w : Word) (a b : Row), a ∈ opcodeMap → b ∈ opcodeMap → w &&& a.mask = a.pattern → w &&& b.mask = b.pattern → a = b) ∧
  (∀ row, row ∈ opcodeMap → row.mask.extractLsb' 26 6 = 0x3F#6)

/-- Words the spec writes out in its examples (spec/41 to 46), each with the command it stands for. -/
def Obligations.WrittenWordsDecodeToTheirCommands : Prop :=
  decode 0x04000000#32 = .ok .nop ∧
  decode 0x08000002#32 = .ok (.csrr 0x2) ∧
  decode 0x0D80000D#32 = .ok (.csrw 0x6 0x0D) ∧
  decode 0x24000061#32 = .ok (.fsym false 0x61) ∧
  decode 0x24200000#32 = .ok (.fsym true 0) ∧
  decode 0x40000000#32 = .ok .build ∧
  decode 0x60000063#32 = .ok (.esym false 0x63) ∧
  decode 0x80000000#32 = .ok .drun ∧
  decode 0xA4070056#32 = .ok (.bput 7 0x56) ∧
  decode 0xA8000002#32 = .ok (.bget 2) ∧
  decode 0xB00000AC#32 = .ok (.ubyte 0xAC)

/-- R73: `symid`; the sentinel's SymId is no character's; an operand that is no symbol is IllegalCommand in each command
that has a symbol operand. -/
def Obligations.SymbolOperandNamesSymbol : Prop :=
  (∀ c : Config,
    symid c true 0#21 = some (2 ^ c.symW) ∧
    (∀ char : BitVec 21, char ≠ 0#21 → symid c true char = none) ∧
    (∀ char : BitVec 21, char.toNat < 2 ^ c.symW → symid c false char = some char.toNat) ∧
    (∀ char : BitVec 21, 2 ^ c.symW ≤ char.toNat → symid c false char = none) ∧
    (∀ char : BitVec 21, symid c false char ≠ symid c true 0#21)) ∧
  (∀ (s : State) (S : Bool) (char : BitVec 21), symid s.cfg S char = none →
    exec (.fsym S char) s = .next (s.afterFault [] .illegalCommand (encode (.fsym S char))) ∧
    exec (.frd S char) s = .next (s.afterFault [] .illegalCommand (encode (.frd S char))) ∧
    exec (.esym S char) s = .next (s.afterFault [] .illegalCommand (encode (.esym S char))))

/-- R186 (and R74): a command word raises IllegalCommand exactly when it selects no row of the opcode map, or an operand
is outside its constraint; the constraints are written on the bits of the word. Raising it changes nothing but the fault
record and CMDSEQ. -/
def Obligations.IllegalCommandOnExactlyTheseWords : Prop :=
  ∀ (s : State) (w : Word) (rest : List HostEvent), s.input = .cmd w :: rest →
    let symbolOp := opcode w = 0x09#6 ∨ opcode w = 0x0A#6 ∨ opcode w = 0x18#6
    let S := w.getLsbD 21
    let char := w.extractLsb' 0 21
    let value := w.extractLsb' 0 22
    let n := w.extractLsb' 16 5
    let illegal :=
      (∀ row ∈ opcodeMap, w &&& row.mask ≠ row.pattern) ∨
      (symbolOp ∧ (S = true ∧ char ≠ 0#21 ∨ S = false ∧ 2 ^ s.cfg.symW ≤ char.toNat)) ∨
      (opcode w = 0x02#6 ∧ 0xE ≤ (w.extractLsb' 0 4).toNat) ∨
      (opcode w = 0x03#6 ∧ ¬ (w.extractLsb' 22 4 = 0x3#4 ∧ value = 0#22) ∧
        ¬ (w.extractLsb' 22 4 = 0x6#4 ∧ value.toNat < 2 ^ s.cfg.symW)) ∨
      (opcode w = 0x29#6 ∧ (16 < n.toNat ∨ 2 ^ n.toNat ≤ (w.extractLsb' 0 16).toNat)) ∨
      (opcode w = 0x2A#6 ∧ s.bb.length ≤ (w.extractLsb' 0 26).toNat)
    (illegal → step s = .next (State.afterFault { s with input := rest } [] .illegalCommand w)) ∧
    (¬ illegal → ∀ t items, step s = .next t → t.out ≠ s.out ++ [.answered items (.err .illegalCommand)])

/-! The step, the host's reset, and rules that hold of every command. -/

/-- R90 steps 1 and 3: a word that selects a command runs that command; nothing else is added but that the word is taken
from what the host presents. -/
def Obligations.StepRunsDecodedCommand : Prop :=
  (∀ (s : State) (w : Word) (rest : List HostEvent) (i : Instr), s.input = .cmd w :: rest → decode w = .ok i →
    step s = exec i { s with input := rest }) ∧
  (∀ (s : State) (w : Word) (i : Instr), decode w = .ok i → step (s.withFetchWord 32 w.toNat) = exec i s)

/-- R90, R199: the step is total, takes one thing of what the host presents, and leaves the parameters alone. -/
def Obligations.StepAlwaysAnswersNext : Prop :=
  ∀ s : State, ∃ t, step s = .next t ∧ t.cfg = s.cfg ∧ t.input = s.input.tail

/-- R198 (between commands the core is idle and keeps all its state) and R200 (the reset input). -/
def Obligations.IdleKeepsStateAndResetInputResets : Prop :=
  (∀ s : State, s.input = [] → step s = .next s) ∧
  (∀ (s : State) (rest : List HostEvent), s.input = .rst :: rest →
    step s = .next { State.resetOf s.cfg with input := rest, out := s.out })

/-- R201: a command abandoned by reset leaves the reset state, no terminal, and at most the items transferred before. -/
def Obligations.ResetDuringCommandAbandonsIt : Prop :=
  ∀ (s : State) (w : Word) (k : Nat) (rest : List HostEvent), s.input = .rstDuring w k :: rest →
    ∃ items : List Item,
      step s = .next { State.resetOf s.cfg with input := rest, out := s.out ++ [.abandoned items] } ∧
      items.length ≤ k ∧
      ∀ t all term, runWord w { s with input := rest } = .next t → t.out = s.out ++ [.answered all term] → items <+: all

/-- R48: the reset input and `SRST` leave every state element at its reset value, whatever the state before. -/
def Obligations.ResetValues : Prop :=
  ∀ s t : State, ((∃ rest, s.input = .rst :: rest) ∧ step s = .next t) ∨ exec .srst s = .next t →
    HasResetValues t ∧ t.cfg = s.cfg

/-- R48, R8: the state right after reset has the reset values, for every configuration. That `State.reset` is the reference
configuration's is the model's choice (notes/assumptions/1.md). -/
def Obligations.ResetStateHasTheResetValues : Prop :=
  (∀ c : Config, HasResetValues (State.resetOf c) ∧ (State.resetOf c).cfg = c ∧ (State.resetOf c).input = [] ∧
    (State.resetOf c).out = []) ∧
  State.reset = State.resetOf { symW := 8, cntW := 32, bbCap := 1048576 }

/-- R90, R94, R214: a run carries out the presented commands once each, in order, each from the state the last one left;
no command depends on what the host presents after it. -/
def Obligations.RunIsTheFoldOfItsCommands : Prop :=
  ∀ (is : List Instr) (s : State) (rest : List HostEvent),
    Host.Core.run core is.length { s with input := is.map (fun i => .cmd (encode i)) ++ rest } =
      execAll is { s with input := rest }

/-- R85: every command answers one response sequence, items and then exactly one terminal, after those before it. -/
def Obligations.EveryCommandAnswersOneReply : Prop :=
  ∀ (s : State) (w : Word) (rest : List HostEvent), s.input = .cmd w :: rest →
    ∃ t items term, step s = .next t ∧ t.out = s.out ++ [.answered items term]

/-- R34: every command word, whatever its terminal, adds 1 to CMDSEQ modulo 2^32; after a legal `SRST` CMDSEQ is 0; a command
reads CMDSEQ as it stands before its own increment. -/
def Obligations.CmdseqCountsEveryCommand : Prop :=
  (∀ c : Config, (State.resetOf c).cmdseq = 0) ∧
  (∀ s : State, exec (.csrr 0x5#4) s =
    .next { s with cmdseq := s.cmdseq + 1, out := s.out ++ [.answered [] (.value s.cmdseq)] }) ∧
  ∀ (s : State) (w : Word) (rest : List HostEvent), s.input = .cmd w :: rest →
    ∃ t, step s = .next t ∧
      (decode w = .ok .srst → t.cmdseq = 0) ∧
      (decode w ≠ .ok .srst → t.cmdseq.toNat = (s.cmdseq.toNat + 1) % 2 ^ 32)

/-- R188, R189: when a command answers ERR, only ECAUSE, EINFO and CMDSEQ have changed, to the cause, the command word and
the count; stream items can stand before the ERR only for `DRUN`, and they are SYM items. -/
def Obligations.FaultsArePrecise : Prop :=
  ∀ (s t : State) (w : Word) (rest : List HostEvent) (items : List Item) (c : Cause),
    s.input = .cmd w :: rest → step s = .next t → t.out = s.out ++ [.answered items (.err c)] →
      t = State.afterFault { s with input := rest } items c w ∧
      (Terminal.err c).response = (7, 0#28 ++ c.code) ∧
      (items ≠ [] → decode w = .ok .drun) ∧ ∀ x ∈ items, ∃ v, x = .sym v

/-- R32, R192: a command that ends without a fault leaves the fault record alone, but for `CSRW ECAUSE, 0` and `SRST`. -/
def Obligations.SuccessKeepsFaultRecord : Prop :=
  ∀ (s t : State) (i : Instr) (items : List Item) (term : Terminal),
    exec i s = .next t → t.out = s.out ++ [.answered items term] → (∀ c, term ≠ .err c) →
      i ≠ .srst → i ≠ .csrw 0x3#4 0#22 → t.ecause = s.ecause ∧ t.einfo = s.einfo

/-- R194, R185: a command raises no cause but those of its row, and no command raises IOError. -/
def Obligations.CommandsRaiseOnlyTheirCauses : Prop :=
  ∀ (s t : State) (w : Word) (rest : List HostEvent) (items : List Item) (c : Cause),
    s.input = .cmd w :: rest → step s = .next t → t.out = s.out ++ [.answered items (.err c)] →
      c ≠ .ioError ∧ (c = .illegalCommand ∨ ∃ i, decode w = .ok i ∧ mayRaise i c = true)

/-- R87: the response sequence of each command, fault or not. -/
def Obligations.ResponseSequenceOfEachCommand : Prop :=
  ∀ (s t : State) (i : Instr) (items : List Item) (term : Terminal),
    exec i s = .next t → t.out = s.out ++ [.answered items term] →
      ((∃ c, term = .err c) → i ≠ .pack ∧ (items ≠ [] → i = .drun)) ∧
      ((∀ c, term ≠ .err c) →
        ((∃ v, term = .value v) ↔ (∃ a, i = .csrr a) ∨ (∃ S ch, i = .frd S ch) ∨ ∃ x, i = .bget x) ∧
        (items ≠ [] → i = .pack ∨ i = .drun) ∧
        (i = .pack → ∃ bytes : List Byte, items = bytes.map .byte ∧ bytes.length = 1 + (s.bb.length + 7) / 8) ∧
        (i = .drun → ∀ x ∈ items, ∃ v, x = .sym v))

/-- R111 corner case (b), R64: no command but `BUILD` and `SRST` writes the tree, and none but those and `DERIVE` writes
the code table. -/
def Obligations.OnlyBuildWritesTheTree : Prop :=
  ∀ (s t : State) (i : Instr), exec i s = .next t → i ≠ .build → i ≠ .srst →
    t.nm = s.nm ∧ t.nleaf = s.nleaf ∧ t.nnode = s.nnode ∧ t.root = s.root ∧ t.tree = s.tree ∧
    (i ≠ .derive → t.ct = s.ct ∧ t.codes = s.codes)

/-- R60: no read has a side effect, and repeating one answers the same, but for `CSRR CMDSEQ`. -/
def Obligations.ReadsRepeat : Prop :=
  ∀ (s t u : State) (i : Instr) (items items' : List Item) (term term' : Terminal),
    ((∃ a, i = .csrr a ∧ a ≠ 0x5#4) ∨ (∃ S ch, i = .frd S ch) ∨ ∃ x, i = .bget x) →
    exec i s = .next t → t.out = s.out ++ [.answered items term] →
    exec i t = .next u → u.out = t.out ++ [.answered items' term'] →
      term' = term ∧ ((∀ c, term ≠ .err c) → t = { s with cmdseq := s.cmdseq + 1, out := t.out })

/-- R180, R86: the cause codes, and the response words of each kind of response. -/
def Obligations.CauseCodesAndResponseWords : Prop :=
  (Cause.emptyInput.code = 1 ∧ Cause.unknownSymbol.code = 2 ∧ Cause.uninitializedCode.code = 3 ∧
    Cause.malformedStream.code = 4 ∧ Cause.ioError.code = 5 ∧ Cause.capacityExceeded.code = 6 ∧
    Cause.illegalCommand.code = 7) ∧
  Terminal.done.response = (0, 0) ∧
  (∀ v, (Terminal.value v).response = (1, v)) ∧
  (∀ b : Byte, (Item.byte b).response = (2, 0#24 ++ b)) ∧
  (∀ v : BitVec 22, (Item.sym v).response = (3, 0#10 ++ v)) ∧
  (∀ c : Cause, (Terminal.err c).response = (7, 0#28 ++ c.code))

/-! System commands. -/

/-- R170. -/
def Obligations.NopChangesOnlyCmdseq : Prop :=
  encode .nop = 0x04000000#32 ∧
  (∀ s : State, exec .nop s = .next { s with cmdseq := s.cmdseq + 1, out := s.out ++ [.answered [] .done] }) ∧
  StrayBitsFault 0x01#6 0 26

/-- R171, with the register map of R35 to R46. -/
def Obligations.CsrrReadsEveryRegister : Prop :=
  (∀ a, (encode (.csrr a)).toNat = 0x08000000 + a.toNat) ∧
  (∀ s : State,
    let reads (addr : BitVec 4) (v : Word) : Prop :=
      exec (.csrr addr) s = .next { s with cmdseq := s.cmdseq + 1, out := s.out ++ [.answered [] (.value v)] }
    let dmid := decide (s.tree = true ∧ s.dptr ≠ s.root)
    let ust := decide (s.ust = .data)
    reads 0x0 0x48544301 ∧
    reads 0x1 (BitVec.ofNat 32 (32 * s.cfg.cntW + s.cfg.symW)) ∧
    reads 0x2 (BitVec.ofNat 32
      (16 * dmid.toNat + 8 * s.udat.toNat + 4 * ust.toNat + 2 * s.codes.toNat + s.tree.toNat)) ∧
    reads 0x3 (BitVec.ofNat 32 s.ecause.toNat) ∧
    reads 0x4 s.einfo ∧
    reads 0x5 s.cmdseq ∧
    reads 0x6 (BitVec.ofNat 32 s.eolchar.toNat) ∧
    reads 0x7 (BitVec.ofNat 32 s.cfg.bbCap) ∧
    reads 0x8 (BitVec.ofNat 32 s.bb.length) ∧
    reads 0x9 (BitVec.ofNat 32 s.pad.toNat) ∧
    reads 0xA (BitVec.ofNat 32 s.nleaf) ∧
    reads 0xB (BitVec.ofNat 32 s.nnode) ∧
    reads 0xC (BitVec.ofNat 32 s.root) ∧
    reads 0xD (BitVec.ofNat 32 s.dptr) ∧
    exec (.csrr 0xE) s = .next (s.afterFault [] .illegalCommand 0x0800000E) ∧
    exec (.csrr 0xF) s = .next (s.afterFault [] .illegalCommand 0x0800000F)) ∧
  StrayBitsFault 0x02#6 4 22

/-- R91, R92: in every state that meets the invariant the registers fit in the VALUE response, so `CSRR` reads the
parameters, lengths, counts and node indices exactly. -/
def Obligations.CsrrValuesAreExact : Prop :=
  ∀ s : State, CoreInv s → ∀ v : Word,
    (s.csrRead 0x1 = some v → v.toNat = 32 * s.cfg.cntW + s.cfg.symW) ∧
    (s.csrRead 0x7 = some v → v.toNat = s.cfg.bbCap) ∧
    (s.csrRead 0x8 = some v → v.toNat = s.bb.length ∧ s.bb.length < 2 ^ 27) ∧
    (s.csrRead 0xA = some v → v.toNat = s.nleaf ∧ s.nleaf < 2 ^ (s.cfg.symW + 1)) ∧
    (s.csrRead 0xB = some v → v.toNat = s.nnode ∧ s.nnode < 2 ^ s.cfg.nidxW) ∧
    (s.csrRead 0xC = some v → v.toNat = s.root ∧ s.root < 2 ^ s.cfg.nidxW) ∧
    (s.csrRead 0xD = some v → v.toNat = s.dptr ∧ s.dptr < 2 ^ s.cfg.nidxW)

/-- R172, with R39 and R42. -/
def Obligations.CsrwWritesOrRefuses : Prop :=
  (∀ a v, (encode (.csrw a v)).toNat = 0x0C000000 + a.toNat * 2 ^ 22 + v.toNat) ∧
  ∀ s : State,
    exec (.csrw 0x3#4 0#22) s =
      .next { s with ecause := 0, einfo := 0, cmdseq := s.cmdseq + 1, out := s.out ++ [.answered [] .done] } ∧
    (∀ v, v ≠ 0#22 → exec (.csrw 0x3#4 v) s = .next (s.afterFault [] .illegalCommand (encode (.csrw 0x3#4 v)))) ∧
    (s.cfg.symW ≤ 21 → ∀ v, v.toNat < 2 ^ s.cfg.symW → ∃ e : BitVec 21, e.toNat = v.toNat ∧
      exec (.csrw 0x6#4 v) s =
        .next { s with eolchar := e, cmdseq := s.cmdseq + 1, out := s.out ++ [.answered [] .done] }) ∧
    (∀ v, 2 ^ s.cfg.symW ≤ v.toNat →
      exec (.csrw 0x6#4 v) s = .next (s.afterFault [] .illegalCommand (encode (.csrw 0x6#4 v)))) ∧
    (∀ a v, a ≠ 0x3#4 → a ≠ 0x6#4 → exec (.csrw a v) s = .next (s.afterFault [] .illegalCommand (encode (.csrw a v))))

/-- R173, R202. -/
def Obligations.SrstResetsEverything : Prop :=
  encode .srst = 0x10000000#32 ∧
  (∀ s : State, exec .srst s =
    .next { State.resetOf s.cfg with input := s.input, out := s.out ++ [.answered [] .done] }) ∧
  StrayBitsFault 0x04#6 0 26

/-! Frequency counter. -/

/-- R100. -/
def Obligations.FclrClearsEveryCount : Prop :=
  encode .fclr = 0x20000000#32 ∧
  (∀ s : State, ∃ t, exec .fclr s = .next t ∧ (∀ id, t.count id = 0) ∧
    t = { s with ft := t.ft, cmdseq := s.cmdseq + 1, out := s.out ++ [.answered [] .done] }) ∧
  StrayBitsFault 0x08#6 0 26

/-- R101: one count grows by 1 and every other keeps its value; at the greatest count, and for an operand that is no
symbol, nothing is counted. -/
def Obligations.FsymCountsOneOccurrence : Prop :=
  (∀ S char, (encode (.fsym S char)).toNat = 0x24000000 + S.toNat * 2 ^ 21 + char.toNat) ∧
  (∀ (s : State) (S : Bool) (char : BitVec 21),
    (∀ id, symid s.cfg S char = some id → s.count id ≠ 2 ^ s.cfg.cntW - 1 →
      ∃ t, exec (.fsym S char) s = .next t ∧ t.count id = s.count id + 1 ∧ (∀ j, j ≠ id → t.count j = s.count j) ∧
        t = { s with ft := t.ft, cmdseq := s.cmdseq + 1, out := s.out ++ [.answered [] .done] }) ∧
    (∀ id, symid s.cfg S char = some id → s.count id = 2 ^ s.cfg.cntW - 1 →
      exec (.fsym S char) s = .next (s.afterFault [] .capacityExceeded (encode (.fsym S char)))) ∧
    (symid s.cfg S char = none →
      exec (.fsym S char) s = .next (s.afterFault [] .illegalCommand (encode (.fsym S char))))) ∧
  StrayBitsFault 0x09#6 22 4

/-- R102. -/
def Obligations.FrdReadsTheCount : Prop :=
  (∀ S char, (encode (.frd S char)).toNat = 0x28000000 + S.toNat * 2 ^ 21 + char.toNat) ∧
  (∀ (s : State) (S : Bool) (char : BitVec 21),
    (∀ id, symid s.cfg S char = some id → exec (.frd S char) s =
      .next { s with cmdseq := s.cmdseq + 1,
                     out := s.out ++ [.answered [] (.value (BitVec.ofNat 32 (s.count id)))] }) ∧
    (symid s.cfg S char = none →
      exec (.frd S char) s = .next (s.afterFault [] .illegalCommand (encode (.frd S char))))) ∧
  StrayBitsFault 0x0A#6 22 4

/-! Tree builder and code deriver. -/

/-- R181: `BUILD` of a table with no symbol present. -/
def Obligations.BuildOfEmptyTableFaults : Prop :=
  ∀ s : State, (∀ id, id < 2 ^ s.cfg.symW + 1 → s.count id = 0) →
    exec .build s = .next (s.afterFault [] .emptyInput 0x40000000)

/-- R111: with a symbol present `BUILD` completes, sets TREE and CODES, puts the walk pointer at the new root, and changes
nothing but the tree, the code table and those. -/
def Obligations.BuildCompletesOnAnyPresentSymbol : Prop :=
  encode .build = 0x40000000#32 ∧
  (∀ (s : State) (id : Nat), id < 2 ^ s.cfg.symW + 1 → 1 ≤ s.count id →
    ∃ t, exec .build s = .next t ∧
      t = { s with nm := t.nm, nleaf := t.nleaf, nnode := t.nnode, root := t.root, ct := t.ct, tree := true,
                   codes := true, dptr := t.root, cmdseq := s.cmdseq + 1, out := s.out ++ [.answered [] .done] }) ∧
  StrayBitsFault 0x10#6 0 26

/-- R112: leaf j of the built tree is the j-th present symbol in ascending SymId order, with its count as weight,
and no other node is a real leaf. -/
def Obligations.BuildMakesLeavesInSymbolOrder : Prop :=
  ∀ (s t : State), exec .build s = .next t → t.out = s.out ++ [.answered [] .done] →
    let ids := (List.range (2 ^ s.cfg.symW + 1)).filter fun id => decide (1 ≤ s.count id)
    t.nleaf = ids.length ∧
    (∀ (j : Nat) (h : j < ids.length), t.node j = ⟨false, false, s.count ids[j], ids[j], 0, 0⟩) ∧
    ∀ i, t.nleaf ≤ i → i < t.nnode → ¬ ((t.node i).k = false ∧ (t.node i).ph = false)

/-- R113: the tree of a table with exactly one symbol present; a walk that reaches the phantom leaf is an error. -/
def Obligations.BuildOneSymbolTree : Prop :=
  ∀ (s : State) (id : Nat), id < 2 ^ s.cfg.symW + 1 → 1 ≤ s.count id →
    (∀ j, j < 2 ^ s.cfg.symW + 1 → j ≠ id → s.count j = 0) →
    ∃ t, exec .build s = .next t ∧ t.nleaf = 1 ∧ t.nnode = 3 ∧ t.root = 2 ∧ t.dptr = 2 ∧
      t.node 0 = ⟨false, false, s.count id, id, 0, 0⟩ ∧
      t.node 1 = ⟨false, true, 0, 0, 0, 0⟩ ∧
      t.node 2 = ⟨true, false, s.count id, 0, 1, 0⟩ ∧
      t.code id = [true] ∧ (∀ j, j ≠ id → t.code j = []) ∧
      exec .drun { t with bb := [false] } =
        .next (State.afterFault { t with bb := [false] } [] .malformedStream 0x80000000)

/-- R114, R116: every internal node is made of the two nodes that come first, by (weight, index), among those queued when
it is made; the first is its left child, the second its right. -/
def Obligations.BuildMergesTheTwoLeast : Prop :=
  ∀ (s t : State), exec .build s = .next t → t.out = s.out ++ [.answered [] .done] →
    ∀ n, max t.nleaf 2 ≤ n → n < t.nnode →
      let a := (t.node n).l
      let b := (t.node n).r
      t.node n = ⟨true, false, (t.node a).w + (t.node b).w, 0, a, b⟩ ∧
      QueuedAt t.nm n a ∧ (∀ i, QueuedAt t.nm n i → i ≠ a → ComesBefore t.nm a i) ∧
      QueuedAt t.nm n b ∧ b ≠ a ∧ (∀ i, QueuedAt t.nm n i → i ≠ a → i ≠ b → ComesBefore t.nm b i)

/-- R115: the root is the node allocated last and the only one left in the queue, NNODE counts the nodes, and the entries
from NNODE on are all-zero. -/
def Obligations.BuildRootIsTheLastNode : Prop :=
  ∀ (s t : State), exec .build s = .next t → t.out = s.out ++ [.answered [] .done] →
    t.nnode = 2 * max t.nleaf 2 - 1 ∧ t.root = t.nnode - 1 ∧
    (∀ i, QueuedAt t.nm t.nnode i ↔ i = t.root) ∧
    (∀ i, t.nnode ≤ i → t.node i = ⟨false, false, 0, 0, 0, 0⟩)

/-- R119: a symbol has a code exactly when the code is the path from the root to the real leaf of the symbol, 0 to the
left and 1 to the right. -/
def Obligations.BuildCodesAreLeafPaths : Prop :=
  ∀ (s t : State), exec .build s = .next t → t.out = s.out ++ [.answered [] .done] →
    ∀ (id : Nat) (p : Bits), p ≠ [] →
      (t.code id = p ↔ ∃ i, follow t.nm t.root p = some i ∧ IsLeafOf t.nm i id)

/-- R120 (a): no code is an initial part of another symbol's code. -/
def Obligations.CodeTableIsFreeOfCommonStarts : Prop :=
  ∀ s : State, CoreInv s → ∀ a b : Nat, s.code a ≠ [] → s.code b ≠ [] → a ≠ b → ¬ s.code a <+: s.code b

/-- R120 (b): every present symbol gets a code of length 1 to MAXLEN, every absent symbol none. -/
def Obligations.PresentSymbolsGetCodes : Prop :=
  ∀ (s t : State), exec .build s = .next t → t.out = s.out ++ [.answered [] .done] →
    ∀ id, (t.code id ≠ [] ↔ id < 2 ^ s.cfg.symW + 1 ∧ 1 ≤ s.count id) ∧ (t.code id).length ≤ 2 ^ s.cfg.symW

/-- R118: the root's weight is the sum of all counts, no weight is above it, and it fits in WT_W bits. -/
def Obligations.WeightsNeverOverflow : Prop :=
  ∀ (s t : State), s.cfg.Ok → (∀ id, s.count id < 2 ^ s.cfg.cntW) →
    exec .build s = .next t → t.out = s.out ++ [.answered [] .done] →
      (t.node t.root).w = ((List.range (2 ^ s.cfg.symW + 1)).map s.count).sum ∧
      (∀ i, (t.node i).w ≤ (t.node t.root).w) ∧
      (t.node t.root).w < 2 ^ (s.cfg.cntW + s.cfg.symW + 1)

/-- R17: the state `BUILD` leaves is a function of the frequency table alone. -/
def Obligations.BuildDependsOnTheTableAlone : Prop :=
  ∀ (s s' t t' : State), s.cfg = s'.cfg → (∀ id, s.count id = s'.count id) →
    exec .build s = .next t → t.out = s.out ++ [.answered [] .done] → exec .build s' = .next t' →
      t'.out = s'.out ++ [.answered [] .done] ∧ t.nm = t'.nm ∧ t.nleaf = t'.nleaf ∧ t.nnode = t'.nnode ∧
      t.root = t'.root ∧ t.ct = t'.ct ∧ t.tree = t'.tree ∧ t.codes = t'.codes ∧ t.dptr = t'.dptr

/-- R121: `DERIVE` needs a tree and writes only the code table and CODES; in a state that meets the invariant it changes
nothing but CMDSEQ, which R121 marks "[derived: from rule R111 and 10_state.md rule R49 item 1]". In a state whose NM holds
no built tree, `derive` is the model's bounded traversal, a choice of notes/assumptions/9.md. -/
def Obligations.DeriveRederivesTheSameCodes : Prop :=
  encode .derive = 0x44000000#32 ∧
  (∀ s : State,
    (s.tree = false → exec .derive s = .next (s.afterFault [] .uninitializedCode 0x44000000)) ∧
    (s.tree = true → ∃ t, exec .derive s = .next t ∧ t.ct = derive s.nm s.root ∧
      t = { s with ct := t.ct, codes := true, cmdseq := s.cmdseq + 1, out := s.out ++ [.answered [] .done] } ∧
      (CoreInv s → t = { s with cmdseq := s.cmdseq + 1, out := s.out ++ [.answered [] .done] }))) ∧
  StrayBitsFault 0x11#6 0 26

/-! Encoder and decoder. -/

/-- R131, the faults in the order of R187. -/
def Obligations.EsymAppendsTheCode : Prop :=
  (∀ S char, (encode (.esym S char)).toNat = 0x60000000 + S.toNat * 2 ^ 21 + char.toNat) ∧
  (∀ (s : State) (S : Bool) (char : BitVec 21),
    let w := encode (.esym S char)
    (symid s.cfg S char = none → exec (.esym S char) s = .next (s.afterFault [] .illegalCommand w)) ∧
    ∀ id, symid s.cfg S char = some id →
      (s.codes = false → exec (.esym S char) s = .next (s.afterFault [] .uninitializedCode w)) ∧
      (s.codes = true → s.code id = [] → exec (.esym S char) s = .next (s.afterFault [] .unknownSymbol w)) ∧
      (s.codes = true → s.code id ≠ [] → s.cfg.bbCap < s.bb.length + (s.code id).length →
        exec (.esym S char) s = .next (s.afterFault [] .capacityExceeded w)) ∧
      (s.codes = true → s.code id ≠ [] → s.bb.length + (s.code id).length ≤ s.cfg.bbCap →
        exec (.esym S char) s =
          .next { s with bb := s.bb ++ s.code id, cmdseq := s.cmdseq + 1, out := s.out ++ [.answered [] .done] })) ∧
  StrayBitsFault 0x18#6 22 4

/-- R141 on an empty BB and on a BB of one bit, with the symbol word of R88; longer bitstrings are the next statement's. -/
def Obligations.DrunOnOneBit : Prop :=
  encode .drun = 0x80000000#32 ∧
  (∀ s : State,
    (s.codes = false → exec .drun s = .next (s.afterFault [] .uninitializedCode 0x80000000)) ∧
    (s.codes = true → s.bb = [] → exec .drun s =
      .next { s with cmdseq := s.cmdseq + 1, out := s.out ++ [.answered [] .done] }) ∧
    (∀ b : Bool, s.codes = true → s.bb = [b] →
      let q := if b then (s.node s.dptr).r else (s.node s.dptr).l
      ((s.node q).k = true → exec .drun s =
        .next { s with dptr := q, bb := [], cmdseq := s.cmdseq + 1, out := s.out ++ [.answered [] .done] }) ∧
      ((s.node q).k = false → (s.node q).ph = true →
        exec .drun s = .next (s.afterFault [] .malformedStream 0x80000000)) ∧
      ((s.node q).k = false → (s.node q).ph = false →
        let word : BitVec 22 := if (s.node q).sym = 2 ^ s.cfg.symW then 1#1 ++ s.eolchar
          else 0#1 ++ BitVec.ofNat 21 (s.node q).sym
        exec .drun s =
          .next { s with dptr := s.root, bb := [], cmdseq := s.cmdseq + 1,
                         out := s.out ++ [.answered [.sym word] .done] }))) ∧
  StrayBitsFault 0x20#6 0 26

/-- R140, R141: a bitstring may be decoded in pieces. Walking `b1 ++ b2` gives the items of the two pieces one after the
other and the pointer of the second, DPTR carrying the unfinished code word across; where a piece faults, so does the
whole, and DPTR and BB keep their values. -/
def Obligations.DrunInPieces : Prop :=
  ∀ (s t1 : State) (b1 b2 : Bits) (items1 : List Item), s.codes = true →
    exec .drun { s with bb := b1 } = .next t1 →
    (∀ c, t1.out = s.out ++ [.answered items1 (.err c)] →
      exec .drun { s with bb := b1 ++ b2 } = .next (State.afterFault { s with bb := b1 ++ b2 } items1 c 0x80000000)) ∧
    (t1.out = s.out ++ [.answered items1 .done] →
      ∀ (t2 : State) (items2 : List Item), exec .drun { s with bb := b2, dptr := t1.dptr } = .next t2 →
        (∀ c, t2.out = s.out ++ [.answered items2 (.err c)] →
          exec .drun { s with bb := b1 ++ b2 } =
            .next (State.afterFault { s with bb := b1 ++ b2 } (items1 ++ items2) c 0x80000000)) ∧
        (t2.out = s.out ++ [.answered items2 .done] →
          exec .drun { s with bb := b1 ++ b2 } =
            .next { s with dptr := t2.dptr, bb := [], cmdseq := s.cmdseq + 1,
                           out := s.out ++ [.answered (items1 ++ items2) .done] }))

/-- R141, R184 (v): with two or more real leaves `DRUN` completes on every bitstring, and with one it completes on every
bitstring of ones, which is all an encoder can have made. -/
def Obligations.DrunCompletesOnBuiltTrees : Prop :=
  ∀ s : State, CoreInv s → s.tree = true → (2 ≤ s.nleaf ∨ ∀ b ∈ s.bb, b = true) →
    ∃ t items, exec .drun s = .next t ∧
      t = { s with dptr := t.dptr, bb := [], cmdseq := s.cmdseq + 1, out := s.out ++ [.answered items .done] } ∧
      t.dptr < t.nnode ∧ (t.node t.dptr).k = true ∧
      (s.nleaf = 1 → items.length = s.bb.length ∧ t.dptr = s.root)

/-- R143. -/
def Obligations.DendChecksTheWalkPointer : Prop :=
  encode .dend = 0x84000000#32 ∧
  (∀ s : State,
    (s.codes = false → exec .dend s = .next (s.afterFault [] .uninitializedCode 0x84000000)) ∧
    (s.codes = true → s.dptr ≠ s.root → exec .dend s = .next (s.afterFault [] .malformedStream 0x84000000)) ∧
    (s.codes = true → s.dptr = s.root → exec .dend s =
      .next { s with cmdseq := s.cmdseq + 1, out := s.out ++ [.answered [] .done] })) ∧
  StrayBitsFault 0x21#6 0 26

/-! Bit buffer and bit-packer. -/

/-- R150. -/
def Obligations.BclrReturnsToIdle : Prop :=
  encode .bclr = 0xA0000000#32 ∧
  (∀ s : State, exec .bclr s =
    .next { s with bb := [], ust := .hdr, udat := false, pad := 0, dptr := if s.tree = true then s.root else 0,
                   cmdseq := s.cmdseq + 1, out := s.out ++ [.answered [] .done] }) ∧
  StrayBitsFault 0x28#6 0 26

/-- R151: the low n bits, most significant first, are appended. -/
def Obligations.BputAppendsTheLiteral : Prop :=
  (∀ n bits, (encode (.bput n bits)).toNat = 0xA4000000 + n.toNat * 2 ^ 16 + bits.toNat) ∧
  (∀ (s : State) (n : BitVec 5) (bits : BitVec 16),
    let w := encode (.bput n bits)
    (16 < n.toNat ∨ 2 ^ n.toNat ≤ bits.toNat → exec (.bput n bits) s = .next (s.afterFault [] .illegalCommand w)) ∧
    (n.toNat ≤ 16 → bits.toNat < 2 ^ n.toNat → s.cfg.bbCap < s.bb.length + n.toNat →
      exec (.bput n bits) s = .next (s.afterFault [] .capacityExceeded w)) ∧
    (n.toNat ≤ 16 → bits.toNat < 2 ^ n.toNat → s.bb.length + n.toNat ≤ s.cfg.bbCap →
      ∃ lit : Bits, exec (.bput n bits) s =
          .next { s with bb := s.bb ++ lit, cmdseq := s.cmdseq + 1, out := s.out ++ [.answered [] .done] } ∧
        lit.length = n.toNat ∧ ∀ j, j < n.toNat → lit[j]? = some (bits.getLsbD (n.toNat - 1 - j)))) ∧
  StrayBitsFault 0x29#6 21 5

/-- R152. -/
def Obligations.BgetReadsTheBit : Prop :=
  (∀ idx, (encode (.bget idx)).toNat = 0xA8000000 + idx.toNat) ∧
  ∀ (s : State) (idx : BitVec 26),
    (s.bb.length ≤ idx.toNat → exec (.bget idx) s = .next (s.afterFault [] .illegalCommand (encode (.bget idx)))) ∧
    ∀ h : idx.toNat < s.bb.length, exec (.bget idx) s =
      .next { s with cmdseq := s.cmdseq + 1,
                     out := s.out ++ [.answered [] (.value (if s.bb[idx.toNat] then 1 else 0))] }

/-- R153 (with R57, R154): the header byte is the padding count, and bit 7-j of data byte g is bit 8g+j of the padded
bitstring. -/
def Obligations.PackEmitsHeaderAndBytes : Prop :=
  encode .pack = 0xAC000000#32 ∧
  (∀ s : State,
    let pad := (8 - s.bb.length % 8) % 8
    ∃ data : List Byte,
      exec .pack s =
        .next { s with bb := [], cmdseq := s.cmdseq + 1,
                       out := s.out ++ [.answered (.byte (BitVec.ofNat 8 pad) :: data.map .byte) .done] } ∧
      8 * data.length = s.bb.length + pad ∧
      ∀ g j, g < data.length → j < 8 → (data.getD g 0).getLsbD (7 - j) = s.bb.getD (8 * g + j) false) ∧
  StrayBitsFault 0x2B#6 0 26

/-- R157. -/
def Obligations.UbyteTakesHeaderThenData : Prop :=
  (∀ b, (encode (.ubyte b)).toNat = 0xB0000000 + b.toNat) ∧
  (∀ (s : State) (b : Byte),
    let w := encode (.ubyte b)
    (s.ust = .hdr → 7 < b.toNat → exec (.ubyte b) s = .next (s.afterFault [] .malformedStream w)) ∧
    (s.ust = .hdr → b.toNat ≤ 7 → ∃ p : BitVec 3, p.toNat = b.toNat ∧ exec (.ubyte b) s =
      .next { s with pad := p, ust := .data, udat := false, bb := [], cmdseq := s.cmdseq + 1,
                     out := s.out ++ [.answered [] .done] }) ∧
    (s.ust = .data → s.cfg.bbCap < s.bb.length + 8 → exec (.ubyte b) s = .next (s.afterFault [] .capacityExceeded w)) ∧
    (s.ust = .data → s.bb.length + 8 ≤ s.cfg.bbCap → exec (.ubyte b) s =
      .next { s with bb := s.bb ++ [b.getLsbD 7, b.getLsbD 6, b.getLsbD 5, b.getLsbD 4, b.getLsbD 3, b.getLsbD 2,
                                    b.getLsbD 1, b.getLsbD 0],
                     udat := true, cmdseq := s.cmdseq + 1, out := s.out ++ [.answered [] .done] })) ∧
  StrayBitsFault 0x2C#6 8 18

/-- R158. -/
def Obligations.UendStripsThePadding : Prop :=
  encode .uend = 0xB4000000#32 ∧
  (∀ s : State,
    (s.ust = .hdr → exec .uend s = .next (s.afterFault [] .malformedStream 0xB4000000)) ∧
    (s.ust = .data → s.pad ≠ 0#3 → s.udat = false →
      exec .uend s = .next (s.afterFault [] .malformedStream 0xB4000000)) ∧
    (s.ust = .data → (s.pad = 0#3 ∨ s.udat = true) → exec .uend s =
      .next { s with bb := s.bb.take (if s.pad.toNat ≤ s.bb.length then s.bb.length - s.pad.toNat else 0), ust := .hdr,
                     udat := false, cmdseq := s.cmdseq + 1, out := s.out ++ [.answered [] .done] })) ∧
  StrayBitsFault 0x2D#6 0 26

/-- R53: bits pack into bytes most significant first, and unpacking is the inverse. -/
def Obligations.BytesAreMostSignificantBitFirst : Prop :=
  (∀ b0 b1 b2 b3 b4 b5 b6 b7 : Bool, ∃ b : Byte, packedBytes [b0, b1, b2, b3, b4, b5, b6, b7] = [b] ∧
    b.toNat = b0.toNat * 2 ^ 7 + b1.toNat * 2 ^ 6 + b2.toNat * 2 ^ 5 + b3.toNat * 2 ^ 4 + b4.toNat * 2 ^ 3 +
      b5.toNat * 2 ^ 2 + b6.toNat * 2 + b7.toNat) ∧
  (∀ b : Byte, byteBits b = [b.getLsbD 7, b.getLsbD 6, b.getLsbD 5, b.getLsbD 4, b.getLsbD 3, b.getLsbD 2, b.getLsbD 1,
    b.getLsbD 0]) ∧
  (∀ bits : Bits, bits.length % 8 = 0 → (packedBytes bits).flatMap byteBits = bits) ∧
  (∀ bytes : List Byte, packedBytes (bytes.flatMap byteBits) = bytes)

/-! Round trips and the invariant of reachable states. -/

/-- R159: `PACK`, then `UNPACK` of the bytes it emitted, all succeed and leave the bitstring that was packed, whenever its
padded length fits in BBCAP. -/
def Obligations.UnpackOfPackRecoversBits : Prop :=
  ∀ s : State, s.ust = .hdr → 8 * ((s.bb.length + 7) / 8) ≤ s.cfg.bbCap →
    ∃ (t u : State) (bytes : List Byte),
      exec .pack s = .next t ∧ t.out = s.out ++ [.answered (bytes.map .byte) .done] ∧
      execAll (Pseudo.unpack bytes).expand t = .next u ∧
      u.out = t.out ++ List.replicate (bytes.length + 1) (.answered [] .done) ∧
      u.bb = s.bb ∧ u.ust = .hdr

/-- R145: encoding symbols that have codes and then decoding emits exactly those symbols, in order, and ends at the
root. -/
def Obligations.DecodeOfEncodeRecoversSymbols : Prop :=
  ∀ (s : State) (syms : List (Bool × BitVec 21)) (ids : List Nat),
    CoreInv s → s.tree = true → s.dptr = s.root → s.bb = [] →
    syms.map (fun x => symid s.cfg x.1 x.2) = ids.map some → (∀ id ∈ ids, s.code id ≠ []) →
    (ids.map fun id => (s.code id).length).sum ≤ s.cfg.bbCap →
      ∃ t, execAll (syms.map (fun x => .esym x.1 x.2) ++ Pseudo.decode.expand) s = .next t ∧
        t.out = s.out ++ List.replicate ids.length (.answered [] .done) ++
          [.answered (ids.map fun id => .sym (symword s.cfg s.eolchar id)) .done, .answered [] .done] ∧
        t.bb = [] ∧ t.dptr = s.root

/-- R49: the reset state of every configuration meets the invariant. -/
def Obligations.CoreInvAtReset : Prop :=
  ∀ c : Config, c.Ok → CoreInv (State.resetOf c)

/-- R49: every step keeps the invariant, whatever the host presents. -/
def Obligations.StepKeepsCoreInv : Prop :=
  ∀ s t : State, CoreInv s → step s = .next t → CoreInv t

/-- R49 items 2 to 6 and the first half of item 8: the shape of the tree, and who has a code, in every state that meets the
invariant. -/
def Obligations.InvariantGivesTheTreeShape : Prop :=
  ∀ s : State, CoreInv s → s.tree = true →
    let k := max s.nleaf 2
    (1 ≤ s.nleaf ∧ s.nleaf ≤ s.cfg.nsym ∧ s.nnode = 2 * k - 1 ∧ 3 ≤ s.nnode ∧ s.nnode ≤ s.cfg.nnodeMax ∧
      s.root = s.nnode - 1 ∧ (s.node s.root).k = true) ∧
    (∀ i, i < k → (s.node i).k = false) ∧
    (∀ i, k ≤ i → i < s.nnode →
      (s.node i).k = true ∧ (s.node i).l < i ∧ (s.node i).r < i ∧ (s.node i).l ≠ (s.node i).r ∧
      (s.node i).w = (s.node (s.node i).l).w + (s.node (s.node i).r).w) ∧
    (∀ i, s.nnode ≤ i → s.node i = ⟨false, false, 0, 0, 0, 0⟩) ∧
    (∀ j, j < s.nnode → j ≠ s.root → ∃ i, IsChildOf s.nm j i ∧ ∀ i', IsChildOf s.nm j i' → i' = i) ∧
    (∀ i, ¬ IsChildOf s.nm s.root i) ∧
    (∀ id, s.code id ≠ [] ↔ ∃ i, i < s.nleaf ∧ IsLeafOf s.nm i id)
end

