-- ==== Sys2Proof/Laws/Bits.lean ====
section
/-! SUPPORT. The laws of bit order (R53, R78): the bits of a value most significant first, and bytes to bits and back. -/

namespace Sys2Proof.Machine

@[simp] theorem bitsMsbFirst_length (n v : Nat) : (bitsMsbFirst n v).length = n := by
  induction n with
  | zero => rfl
  | succ n ih => simp [bitsMsbFirst, ih]

/-- Element j is bit n-1-j of the value. -/
theorem bitsMsbFirst_get (n v j : Nat) (h : j < n) : (bitsMsbFirst n v)[j]? = some (v.testBit (n - 1 - j)) := by
  induction n generalizing j with
  | zero => omega
  | succ n ih =>
    cases j with
    | zero => simp [bitsMsbFirst]
    | succ j =>
      simp only [bitsMsbFirst, List.getElem?_cons_succ]
      rw [ih j (by omega)]
      congr 2; omega

@[simp] theorem byteBits_length (b : Byte) : (byteBits b).length = 8 := bitsMsbFirst_length 8 _

/-- The bits of a byte, bit 7 first (R53). -/
theorem byteBits_eq (b : Byte) : byteBits b = [b.getLsbD 7, b.getLsbD 6, b.getLsbD 5, b.getLsbD 4, b.getLsbD 3,
    b.getLsbD 2, b.getLsbD 1, b.getLsbD 0] := rfl

/-- The bits of the byte of a group of eight are the group. -/
theorem byteBits_ofGroup (b0 b1 b2 b3 b4 b5 b6 b7 : Bool) :
    byteBits (BitVec.ofNat 8 (bitsValue [b0, b1, b2, b3, b4, b5, b6, b7])) = [b0, b1, b2, b3, b4, b5, b6, b7] := by
  revert b0 b1 b2 b3 b4 b5 b6 b7; decide

/-- The byte of the bits of a byte is the byte. -/
theorem ofGroup_byteBits (b : Byte) : BitVec.ofNat 8 (bitsValue (byteBits b)) = b := by
  revert b; decide

theorem packedBytes_byteBits_append (b : Byte) (rest : Bits) : packedBytes (byteBits b ++ rest) = b :: packedBytes rest := by
  have h := ofGroup_byteBits b
  rw [byteBits_eq] at h ⊢
  simp only [List.cons_append, List.nil_append, packedBytes, h]

/-- A list of at least eight bits is a group of eight and the rest. -/
theorem exists_group {bits : Bits} (h : 8 ≤ bits.length) : ∃ b0 b1 b2 b3 b4 b5 b6 b7 rest,
    bits = b0 :: b1 :: b2 :: b3 :: b4 :: b5 :: b6 :: b7 :: rest := by
  rcases bits with _ | ⟨b0, _ | ⟨b1, _ | ⟨b2, _ | ⟨b3, _ | ⟨b4, _ | ⟨b5, _ | ⟨b6, _ | ⟨b7, rest⟩⟩⟩⟩⟩⟩⟩⟩ <;>
    first | (simp at h; done) | exact ⟨_, _, _, _, _, _, _, _, _, rfl⟩

/-- Induction on bitstrings whose length is a multiple of 8, a group at a time. -/
theorem groups_induction {P : Bits → Prop} (nil : P [])
    (group : ∀ b0 b1 b2 b3 b4 b5 b6 b7 rest, rest.length % 8 = 0 → P rest →
      P (b0 :: b1 :: b2 :: b3 :: b4 :: b5 :: b6 :: b7 :: rest)) :
    ∀ bits : Bits, bits.length % 8 = 0 → P bits := by
  intro bits
  induction h : bits.length using Nat.strongRecOn generalizing bits with
  | _ n ih =>
    intro hn
    subst h
    by_cases h8 : 8 ≤ bits.length
    · obtain ⟨b0, b1, b2, b3, b4, b5, b6, b7, rest, rfl⟩ := exists_group h8
      simp only [List.length_cons] at hn ih
      exact group _ _ _ _ _ _ _ _ rest (by omega) (ih rest.length (by omega) rest rfl (by omega))
    · have : bits = [] := List.length_eq_zero_iff.1 (by omega)
      exact this ▸ nil

/-- Unpacking what was packed gives the bits back (R53). -/
theorem flatMap_byteBits_packedBytes (bits : Bits) (h : bits.length % 8 = 0) :
    (packedBytes bits).flatMap byteBits = bits := by
  refine groups_induction (P := fun bits => (packedBytes bits).flatMap byteBits = bits) rfl ?_ bits h
  intro b0 b1 b2 b3 b4 b5 b6 b7 rest _ ih
  simp only [packedBytes, List.flatMap_cons, ih, byteBits_ofGroup]
  rfl

/-- Packing what was unpacked gives the bytes back (R53). -/
theorem packedBytes_flatMap_byteBits (bytes : List Byte) : packedBytes (bytes.flatMap byteBits) = bytes := by
  induction bytes with
  | nil => rfl
  | cons b bytes ih => rw [List.flatMap_cons, packedBytes_byteBits_append, ih]

theorem packedBytes_length (bits : Bits) (h : bits.length % 8 = 0) : 8 * (packedBytes bits).length = bits.length := by
  refine groups_induction (P := fun bits => 8 * (packedBytes bits).length = bits.length) rfl ?_ bits h
  intro b0 b1 b2 b3 b4 b5 b6 b7 rest _ ih
  simp only [packedBytes, List.length_cons]; omega

/-- The padded length is the next multiple of 8 (R57, R154). -/
theorem padding_spec (len : Nat) : padding len < 8 ∧ (len + padding len) % 8 = 0 ∧ len + padding len = 8 * ((len + 7) / 8) := by
  unfold padding; omega

end Sys2Proof.Machine
end

