-- ==== Sys2Proof/Laws/Store.lean ====
section
/-! SUPPORT. The laws of the sparse stores FT and CT: what a read gives after a write, that a write keeps the canonical
form, and that a canonical store is determined by its reads. -/

namespace Sys2Proof.Machine

variable {α : Type} {d : α} {st : Store α} {n k : Nat} {v : α}

@[simp] theorem Store.get_nil (d : α) (k : Nat) : Store.get d [] k = d := rfl

theorem Store.get_cons (d : α) (i k : Nat) (v : α) (st : Store α) :
    Store.get d ((i, v) :: st) k = if i = k then v else Store.get d st k := rfl

/-- An index below or equal to no listed index reads the reset value. -/
theorem Store.get_of_lt (h : ∀ e ∈ st, k < e.1) : Store.get d st k = d := by
  induction st with
  | nil => rfl
  | cons e st ih =>
    obtain ⟨i, u⟩ := e
    have hi : i ≠ k := by have := h (i, u) (by simp); omega
    rw [Store.get_cons, if_neg hi]
    exact ih fun e he => h e (by simp [he])

/-- A listed entry of a canonical store is what its index reads. -/
theorem Store.get_of_mem (hp : st.Pairwise (fun a b => a.1 < b.1)) {e : Nat × α} (he : e ∈ st) :
    Store.get d st e.1 = e.2 := by
  induction st with
  | nil => simp at he
  | cons a st ih =>
    rw [List.pairwise_cons] at hp
    obtain ⟨i, u⟩ := a
    rcases List.mem_cons.1 he with rfl | he
    · simp [Store.get_cons]
    · have := hp.1 e he
      rw [Store.get_cons, if_neg (by simp at this; omega)]
      exact ih hp.2 he

/-- A read that is not the reset value is a listed entry. -/
theorem Store.mem_of_get_ne (h : Store.get d st k ≠ d) : (k, Store.get d st k) ∈ st := by
  induction st with
  | nil => simp at h
  | cons a st ih =>
    obtain ⟨i, u⟩ := a
    rw [Store.get_cons] at h ⊢
    by_cases hi : i = k
    · simp [hi]
    · rw [if_neg hi] at h ⊢
      exact List.mem_cons_of_mem _ (ih h)

/-- In a store of `n` entries an index of `n` or more reads the reset value. -/
theorem Store.get_of_le (hw : Store.wf d n st) (hk : n ≤ k) : Store.get d st k = d := by
  by_contra h
  have := (hw.2 _ (Store.mem_of_get_ne h)).1
  simp at this; omega

theorem Store.wf_nil (d : α) (n : Nat) : Store.wf d n [] := by simp [Store.wf]

theorem Store.wf_tail {e : Nat × α} (h : Store.wf d n (e :: st)) : Store.wf d n st :=
  ⟨(List.pairwise_cons.1 h.1).2, fun a ha => h.2 a (by simp [ha])⟩

/-- Every entry a write leaves is the entry written or was there before. -/
theorem Store.mem_set [DecidableEq α] {e : Nat × α} (h : e ∈ Store.set d st k v) : e = (k, v) ∧ v ≠ d ∨ e ∈ st := by
  induction st with
  | nil => unfold Store.set at h; split at h <;> simp_all
  | cons a st ih =>
    obtain ⟨i, u⟩ := a
    unfold Store.set at h
    split at h
    · split at h
      · exact .inr h
      · rcases List.mem_cons.1 h with rfl | h
        · exact .inl ⟨rfl, ‹_›⟩
        · exact .inr h
    · split at h
      · split at h
        · exact .inr (by simp [h])
        · rcases List.mem_cons.1 h with rfl | h
          · exact .inl ⟨rfl, ‹_›⟩
          · exact .inr (by simp [h])
      · rcases List.mem_cons.1 h with rfl | h
        · exact .inr (by simp)
        · rcases ih h with h | h
          · exact .inl h
          · exact .inr (by simp [h])

/-- A write keeps the canonical form. -/
theorem Store.wf_set [DecidableEq α] (hw : Store.wf d n st) (hk : k < n) (v : α) : Store.wf d n (Store.set d st k v) := by
  refine ⟨?_, fun e he => ?_⟩
  · induction st with
    | nil => unfold Store.set; split <;> simp
    | cons a st ih =>
      obtain ⟨i, u⟩ := a
      have hp := hw.1
      rw [List.pairwise_cons] at hp
      unfold Store.set
      split
      · split
        · exact hw.1
        · rw [List.pairwise_cons]
          refine ⟨fun e he => ?_, hw.1⟩
          rcases List.mem_cons.1 he with rfl | he
          · assumption
          · have := hp.1 e he; simp at this ⊢; omega
      · split
        · split
          · exact hp.2
          · subst k
            exact List.pairwise_cons.2 ⟨hp.1, hp.2⟩
        · rw [List.pairwise_cons]
          refine ⟨fun e he => ?_, ih (Store.wf_tail hw)⟩
          rcases Store.mem_set he with ⟨rfl, -⟩ | he
          · simp; omega
          · exact hp.1 e he
  · rcases Store.mem_set he with ⟨rfl, h⟩ | he
    · exact ⟨hk, h⟩
    · exact hw.2 e he

/-- A read after a write (of a value other than the reset value, or to a canonical store). -/
theorem Store.get_set_self [DecidableEq α] (h : v ≠ d ∨ st.Pairwise (fun a b => a.1 < b.1)) :
    Store.get d (Store.set d st k v) k = v := by
  induction st with
  | nil => unfold Store.set; split <;> simp_all [Store.get_cons]
  | cons a st ih =>
    obtain ⟨i, u⟩ := a
    have hlt : st.Pairwise (fun a b => a.1 < b.1) ∧ (∀ e ∈ st, i < e.1) ∨ v ≠ d := by
      rcases h with h | h
      · exact .inr h
      · rw [List.pairwise_cons] at h; exact .inl ⟨h.2, h.1⟩
    unfold Store.set
    split
    · split
      · rcases hlt with ⟨-, hlt⟩ | hv
        · subst v
          apply Store.get_of_lt
          intro e he
          rcases List.mem_cons.1 he with rfl | he
          · assumption
          · have := hlt e he; omega
        · contradiction
      · simp [Store.get_cons]
    · split
      · split
        · rcases hlt with ⟨-, hlt⟩ | hv
          · subst v; subst k; exact Store.get_of_lt hlt
          · contradiction
        · simp [Store.get_cons]
      · rw [Store.get_cons, if_neg (by omega)]
        exact ih (hlt.elim (fun h => .inr h.1) .inl)

/-- A write leaves every other entry alone. -/
theorem Store.get_set_ne [DecidableEq α] {j : Nat} (hj : j ≠ k) : Store.get d (Store.set d st k v) j = Store.get d st j := by
  induction st with
  | nil => unfold Store.set; split <;> simp [Store.get_cons, hj.symm]
  | cons a st ih =>
    obtain ⟨i, u⟩ := a
    unfold Store.set
    split
    · split
      · rfl
      · rw [Store.get_cons, if_neg hj.symm]
    · split
      · subst k
        split <;> simp [Store.get_cons, hj.symm]
      · rw [Store.get_cons, Store.get_cons, ih]

/-- Two canonical stores with the same reads are the same data. -/
theorem Store.ext_get {st' : Store α} (hw : Store.wf d n st) (hw' : Store.wf d n st')
    (h : ∀ k, Store.get d st k = Store.get d st' k) : st = st' := by
  have hmem : ∀ {a b : Store α}, Store.wf d n a → Store.wf d n b → (∀ k, Store.get d a k = Store.get d b k) →
      ∀ e ∈ a, e ∈ b := by
    intro a b ha hb hab e he
    have h1 := Store.get_of_mem (d := d) ha.1 he
    have h2 : Store.get d b e.1 = e.2 := (hab _).symm.trans h1
    have := Store.mem_of_get_ne (st := b) (k := e.1) (d := d) (by rw [h2]; exact (ha.2 e he).2)
    rwa [h2] at this
  have : Std.Antisymm (fun a b : Nat × α => a.1 < b.1) := ⟨fun a b hab hba => by omega⟩
  have : Std.Irrefl (fun a b : Nat × α => a.1 < b.1) := ⟨fun a => by omega⟩
  exact List.Pairwise.eq_of_mem_iff hw.1 hw'.1 fun e => ⟨hmem hw hw' h e, hmem hw' hw (fun k => (h k).symm) e⟩

end Sys2Proof.Machine
end

