-- ==== Sys2Proof/Laws/Tree.lean ====
section
/-! SUPPORT. What `construct` makes (R112 to R118), said once: `MergeInv` is the invariant of the merge loop, and
`BuiltTree` the shape it ends in; everything else about the tree follows from `BuiltTree`. -/

namespace Sys2Proof.Machine

/-! Reading a node memory that has grown. -/

theorem nodeAt_append_lt {nm xs : List Node} {i : Nat} (h : i < nm.length) : nodeAt (nm ++ xs) i = nodeAt nm i := by
  simp [nodeAt, List.getD_eq_getElem?_getD, List.getElem?_append_left h]

theorem nodeAt_append_self (nm : List Node) (x : Node) : nodeAt (nm ++ [x]) nm.length = x := by
  simp [nodeAt]

theorem nodeAt_of_ge {nm : List Node} {i : Nat} (h : nm.length ≤ i) : nodeAt nm i = Node.zero := by
  simp [nodeAt, List.getD_eq_getElem?_getD, List.getElem?_eq_none h]

theorem nodeAt_getElem {nm : List Node} {i : Nat} (h : i < nm.length) : nodeAt nm i = nm[i] := by
  simp [nodeAt, List.getD_eq_getElem?_getD, List.getElem?_eq_getElem h]

/-- Only an entry that is listed is internal. -/
theorem lt_length_of_k {nm : List Node} {i : Nat} (h : (nodeAt nm i).k = true) : i < nm.length := by
  by_contra hc
  rw [nodeAt_of_ge (by omega)] at h
  simp [Node.zero] at h

/-! The queue (R116). -/

theorem before_iff {nm : List Node} {i j : Nat} : before nm i j = true ↔ ComesBefore nm i j := by simp [before]

theorem ComesBefore.trans {nm : List Node} {i j k : Nat} (h1 : ComesBefore nm i j) (h2 : ComesBefore nm j k) :
    ComesBefore nm i k := by unfold ComesBefore at *; omega

theorem ComesBefore.total {nm : List Node} {i j : Nat} (h : ¬ ComesBefore nm i j) (hne : i ≠ j) : ComesBefore nm j i := by
  unfold ComesBefore at *; omega

/-- The least index of a queue that is not empty. -/
theorem least_spec (nm : List Node) {pq : List Nat} (h : pq ≠ []) :
    ∃ i, least nm pq = some i ∧ i ∈ pq ∧ ∀ j ∈ pq, j ≠ i → ComesBefore nm i j := by
  induction pq with
  | nil => contradiction
  | cons i rest ih =>
    by_cases hr : rest = []
    · subst hr; exact ⟨i, rfl, by simp, by simp⟩
    · obtain ⟨j, hj, hmem, hmin⟩ := ih hr
      by_cases hb : ComesBefore nm i j
      · refine ⟨i, by simp [least, hj, before_iff.2 hb], by simp, fun m hm hne => ?_⟩
        rcases List.mem_cons.1 hm with rfl | hm
        · contradiction
        · by_cases hmj : m = j
          · exact hmj ▸ hb
          · exact hb.trans (hmin m hm hmj)
      · refine ⟨j, by simp [least, hj, before_iff, hb], by simp [hmem], fun m hm hne => ?_⟩
        rcases List.mem_cons.1 hm with rfl | hm
        · exact ComesBefore.total hb hne
        · exact hmin m hm hne

/-- `popmin` of a queue that is not empty. -/
theorem popmin_spec (nm : List Node) {pq : List Nat} (h : pq ≠ []) :
    ∃ i, popmin nm pq = some (i, pq.erase i) ∧ i ∈ pq ∧ ∀ j ∈ pq, j ≠ i → ComesBefore nm i j := by
  obtain ⟨i, hi, hmem, hmin⟩ := least_spec nm h
  exact ⟨i, by simp [popmin, hi], hmem, hmin⟩

/-! The merge loop (R114). -/

/-- Node `n` is made of the two nodes that come first among those queued (R114, R116). -/
structure MergedAt (nm : List Node) (n : Nat) : Prop where
  node   : nodeAt nm n = { k := true, ph := false, w := (nodeAt nm (nodeAt nm n).l).w + (nodeAt nm (nodeAt nm n).r).w,
                           sym := 0, l := (nodeAt nm n).l, r := (nodeAt nm n).r }
  left   : QueuedAt nm n (nodeAt nm n).l
  first  : ∀ i, QueuedAt nm n i → i ≠ (nodeAt nm n).l → ComesBefore nm (nodeAt nm n).l i
  right  : QueuedAt nm n (nodeAt nm n).r
  ne     : (nodeAt nm n).r ≠ (nodeAt nm n).l
  second : ∀ i, QueuedAt nm n i → i ≠ (nodeAt nm n).l → i ≠ (nodeAt nm n).r → ComesBefore nm (nodeAt nm n).r i

/-- The invariant of the merge loop that starts from the leaves `lv`. -/
structure MergeInv (lv nm : List Node) (pq : List Nat) : Prop where
  start  : ∃ made, nm = lv ++ made
  merged : ∀ n, lv.length ≤ n → n < nm.length → MergedAt nm n
  nodup  : pq.Nodup
  queued : ∀ i, i ∈ pq ↔ QueuedAt nm nm.length i
  size   : pq.length + nm.length = 2 * lv.length
  weight : (pq.map fun i => (nodeAt nm i).w).sum = (lv.map Node.w).sum

theorem isChildOf_append {nm xs : List Node} {j m : Nat} (h : m < nm.length) :
    IsChildOf (nm ++ xs) j m ↔ IsChildOf nm j m := by
  simp only [IsChildOf, nodeAt_append_lt h]

theorem queuedAt_append {nm xs : List Node} {n i : Nat} (h : n ≤ nm.length) :
    QueuedAt (nm ++ xs) n i ↔ QueuedAt nm n i := by
  constructor <;> rintro ⟨h1, h2⟩ <;> refine ⟨h1, fun m hm hc => h2 m hm ?_⟩
  · exact (isChildOf_append (by omega)).2 hc
  · exact (isChildOf_append (by omega)).1 hc

theorem comesBefore_append {nm xs : List Node} {i j : Nat} (hi : i < nm.length) (hj : j < nm.length) :
    ComesBefore (nm ++ xs) i j ↔ ComesBefore nm i j := by
  simp only [ComesBefore, nodeAt_append_lt hi, nodeAt_append_lt hj]

/-- A node merged stays so as more nodes are made. -/
theorem MergedAt.append {nm : List Node} {n : Nat} (h : MergedAt nm n) (hn : n < nm.length) (xs : List Node) :
    MergedAt (nm ++ xs) n := by
  have hl := h.left.1
  have hr := h.right.1
  have e : nodeAt (nm ++ xs) n = nodeAt nm n := nodeAt_append_lt hn
  constructor
  · rw [e, nodeAt_append_lt (by omega), nodeAt_append_lt (by omega)]; exact h.node
  · rw [e]; exact (queuedAt_append (by omega)).2 h.left
  · intro i hi hne
    rw [e] at hne ⊢
    rw [queuedAt_append (by omega)] at hi
    exact (comesBefore_append (by omega) (by have := hi.1; omega)).2 (h.first i hi hne)
  · rw [e]; exact (queuedAt_append (by omega)).2 h.right
  · rw [e]; exact h.ne
  · intro i hi hne hne'
    rw [e] at hne hne' ⊢
    rw [queuedAt_append (by omega)] at hi
    exact (comesBefore_append (by omega) (by have := hi.1; omega)).2 (h.second i hi hne hne')

/-- In a memory of leaves and merged nodes a child comes before its parent. -/
theorem MergeInv.child_lt {lv nm : List Node} {pq : List Nat} (hv : ∀ x ∈ lv, x.k = false) (h : MergeInv lv nm pq)
    {j i : Nat} (hc : IsChildOf nm j i) : j < i ∧ lv.length ≤ i ∧ i < nm.length := by
  have hi := lt_length_of_k hc.1
  have hk : lv.length ≤ i := by
    by_contra hlt
    obtain ⟨made, rfl⟩ := h.start
    have := hc.1
    rw [nodeAt_append_lt (by omega), nodeAt_getElem (by omega), hv _ (List.getElem_mem _)] at this
    contradiction
  have hm := h.merged i hk hi
  refine ⟨?_, hk, hi⟩
  rcases hc.2 with rfl | rfl
  · exact hm.left.1
  · exact hm.right.1

theorem sum_erase {f : Nat → Nat} {pq : List Nat} {a : Nat} (h : a ∈ pq) :
    f a + ((pq.erase a).map f).sum = (pq.map f).sum := by
  have := (List.perm_cons_erase h).map f
  simpa using this.sum_eq.symm

/-- One pass of the loop keeps the invariant. -/
theorem MergeInv.pass {lv nm : List Node} {pq : List Nat} (hv : ∀ x ∈ lv, x.k = false) (h : MergeInv lv nm pq)
    {a b : Nat} (ha : a ∈ pq) (hamin : ∀ j ∈ pq, j ≠ a → ComesBefore nm a j)
    (hb : b ∈ pq.erase a) (hbmin : ∀ j ∈ pq.erase a, j ≠ b → ComesBefore nm b j) :
    MergeInv lv (nm ++ [internalNode nm a b]) ((pq.erase a).erase b ++ [nm.length]) := by
  have hmema : ∀ i, i ∈ pq.erase a ↔ i ≠ a ∧ i ∈ pq := fun i => h.nodup.mem_erase_iff
  have hnda : (pq.erase a).Nodup := h.nodup.erase a
  have hmemb : ∀ i, i ∈ (pq.erase a).erase b ↔ i ≠ b ∧ i ≠ a ∧ i ∈ pq := fun i => by
    rw [hnda.mem_erase_iff, hmema]
  have hba := (hmema b).1 hb
  have hqa := (h.queued a).1 ha
  have hqb := (h.queued b).1 hba.2
  have hlast := nodeAt_append_self nm (internalNode nm a b)
  have hold : ∀ i, i < nm.length → nodeAt (nm ++ [internalNode nm a b]) i = nodeAt nm i := fun i hi =>
    nodeAt_append_lt hi
  refine ⟨?_, ?_, ?_, ?_, ?_, ?_⟩
  · obtain ⟨made, rfl⟩ := h.start
    exact ⟨made ++ [internalNode (lv ++ made) a b], by simp⟩
  · intro n hk hn
    simp only [List.length_append, List.length_singleton] at hn
    by_cases hlt : n < nm.length
    · exact (h.merged n hk hlt).append hlt _
    · obtain rfl : n = nm.length := by omega
      constructor
      · rw [hlast]
        change internalNode nm a b = { k := true, ph := false, w := (nodeAt _ a).w + (nodeAt _ b).w, sym := 0, l := a, r := b }
        rw [hold a hqa.1, hold b hqb.1]
        rfl
      · rw [hlast]; exact (queuedAt_append (Nat.le_refl _)).2 hqa
      · intro i hi hne
        rw [hlast] at hne ⊢
        rw [queuedAt_append (Nat.le_refl _)] at hi
        exact (comesBefore_append hqa.1 hi.1).2 (hamin i ((h.queued i).2 hi) hne)
      · rw [hlast]; exact (queuedAt_append (Nat.le_refl _)).2 hqb
      · rw [hlast]; exact hba.1
      · intro i hi hne hne'
        rw [hlast] at hne hne' ⊢
        rw [queuedAt_append (Nat.le_refl _)] at hi
        exact (comesBefore_append hqb.1 hi.1).2 (hbmin i ((hmema i).2 ⟨hne, (h.queued i).2 hi⟩) hne')
  · rw [List.nodup_append]
    refine ⟨hnda.erase b, by simp, fun i hi j hj => ?_⟩
    have := ((h.queued i).1 ((hmemb i).1 hi).2.2).1
    simp at hj; omega
  · intro i
    rw [List.mem_append, hmemb, List.mem_singleton, List.length_append, List.length_singleton]
    constructor
    · rintro (⟨hb', ha', hi⟩ | rfl)
      · have hq := (h.queued i).1 hi
        refine ⟨by have := hq.1; omega, fun m hm hc => ?_⟩
        by_cases hlt : m < nm.length
        · exact hq.2 m hlt ((isChildOf_append hlt).1 hc)
        · obtain rfl : m = nm.length := by omega
          have := hc.2
          rw [hlast] at this
          simp only [internalNode] at this
          omega
      · refine ⟨by omega, fun m hm hc => ?_⟩
        by_cases hlt : m < nm.length
        · have := (h.child_lt hv ((isChildOf_append hlt).1 hc)).1
          omega
        · obtain rfl : m = nm.length := by omega
          have := hc.2
          rw [hlast] at this
          simp only [internalNode] at this
          have := hqa.1; have := hqb.1
          omega
    · rintro ⟨hlt, hno⟩
      by_cases he : i = nm.length
      · exact .inr he
      · have hnot : ¬ IsChildOf (nm ++ [internalNode nm a b]) i nm.length := hno _ (by omega)
        have hkids : i ≠ a ∧ i ≠ b := by
          constructor <;> rintro rfl <;> apply hnot <;> unfold IsChildOf <;> rw [hlast] <;> simp [internalNode]
        refine .inl ⟨hkids.2, hkids.1, (h.queued i).2 ⟨by omega, fun m hm hc => ?_⟩⟩
        exact hno m (by omega) ((isChildOf_append hm).2 hc)
  · have h1 := List.length_erase_of_mem ha
    have h2 := List.length_erase_of_mem hb
    have h3 := List.length_pos_of_mem hb
    have := h.size
    simp only [List.length_append, List.length_singleton]
    omega
  · rw [List.map_append, List.sum_append, List.map_congr_left
      (g := fun i => (nodeAt nm i).w) (fun i hi => by rw [hold i ((h.queued i).1 ((hmemb i).1 hi).2.2).1])]
    rw [List.map_cons, List.map_nil, hlast]
    simp only [List.sum_cons, List.sum_nil, internalNode]
    have e1 := sum_erase (f := fun i => (nodeAt nm i).w) ha
    have e2 := sum_erase (f := fun i => (nodeAt nm i).w) hb
    have := h.weight
    omega

/-- The loop ends with one index queued and keeps the invariant, when it may run often enough. -/
theorem merge_spec {lv : List Node} (hv : ∀ x ∈ lv, x.k = false) (n : Nat) {nm : List Node} {pq : List Nat}
    (h : MergeInv lv nm pq) (hne : pq ≠ []) (hn : pq.length ≤ n + 1) :
    MergeInv lv (merge n nm pq).1 (merge n nm pq).2 ∧ (merge n nm pq).2.length = 1 := by
  induction n generalizing nm pq with
  | zero =>
    have := List.length_pos_iff.2 hne
    exact ⟨h, by simp only [merge]; omega⟩
  | succ n ih =>
    obtain ⟨a, hpa, ha, hamin⟩ := popmin_spec nm hne
    have hla := List.length_erase_of_mem ha
    by_cases he : pq.erase a = []
    · have hnone : popmin nm (pq.erase a) = none := by rw [he]; rfl
      have h1 : pq.length = 1 := by
        have := List.length_pos_iff.2 hne
        rw [he] at hla; simp at hla; omega
      simp only [merge, hpa, hnone]
      exact ⟨h, h1⟩
    · obtain ⟨b, hpb, hb, hbmin⟩ := popmin_spec nm he
      have hlb := List.length_erase_of_mem hb
      simp only [merge, hpa, hpb]
      have h3 := List.length_pos_of_mem hb
      exact ih (h.pass hv ha hamin hb hbmin) (by simp) (by simp; omega)

/-- Before the loop every leaf is queued. -/
theorem MergeInv.init {lv : List Node} (hv : ∀ x ∈ lv, x.k = false) : MergeInv lv lv (List.range lv.length) := by
  have hno : ∀ i m, ¬ IsChildOf lv i m := fun i m hc => by
    have hm := lt_length_of_k hc.1
    have := hc.1
    rw [nodeAt_getElem hm, hv _ (List.getElem_mem _)] at this
    contradiction
  refine ⟨⟨[], by simp⟩, fun n h1 h2 => by omega, List.nodup_range, fun i => ?_, by simp; omega, ?_⟩
  · rw [List.mem_range]
    exact ⟨fun h => ⟨h, fun m _ => hno i m⟩, fun h => h.1⟩
  · congr 1
    apply List.ext_getElem
    · simp
    · intro i h1 h2
      simp at h1
      simp [nodeAt_getElem h1]

/-! The tree that `construct` makes. -/

/-- The shape of a built tree with leaves `lv` (R114, R115). -/
structure BuiltTree (lv nm : List Node) (root : Nat) : Prop where
  two    : 2 ≤ lv.length
  start  : ∃ made, nm = lv ++ made
  length : nm.length = 2 * lv.length - 1
  last   : root = nm.length - 1
  leaf   : ∀ x ∈ lv, x.k = false
  merged : ∀ n, lv.length ≤ n → n < nm.length → MergedAt nm n
  queued : ∀ i, QueuedAt nm nm.length i ↔ i = root
  weight : (nodeAt nm root).w = (lv.map Node.w).sum

theorem leaves_leaf (ft : Store Nat) (ids : List Nat) : ∀ x ∈ leaves ft ids, x.k = false := by
  intro x hx
  rcases List.mem_append.1 hx with hx | hx
  · obtain ⟨id, -, rfl⟩ := List.mem_map.1 hx; rfl
  · split at hx <;> simp at hx; subst hx; rfl

theorem leaves_length (ft : Store Nat) {ids : List Nat} (h : ids ≠ []) : (leaves ft ids).length = max ids.length 2 := by
  have := List.length_pos_iff.2 h
  unfold leaves
  split <;> simp <;> omega

theorem leaves_weight (ft : Store Nat) (ids : List Nat) :
    ((leaves ft ids).map Node.w).sum = (ids.map (Store.get 0 ft)).sum := by
  unfold leaves
  rw [List.map_append, List.sum_append, List.map_map]
  have : (List.map Node.w (if ids.length = 1 then [phantomLeaf] else [])).sum = 0 := by split <;> rfl
  rw [this]; rfl

/-- What `construct` makes of a table with a symbol present. -/
theorem construct_built (ft : Store Nat) {ids : List Nat} (h : ids ≠ []) :
    BuiltTree (leaves ft ids) (construct ft ids).nm (construct ft ids).root := by
  have hl := leaves_length ft h
  have hv := leaves_leaf ft ids
  have h2 : 2 ≤ (leaves ft ids).length := by omega
  obtain ⟨hi, h1⟩ := merge_spec hv ((leaves ft ids).length - 1) (MergeInv.init hv)
    (by rw [Ne, List.range_eq_nil]; omega) (by simp; omega)
  obtain ⟨r, hr⟩ := List.length_eq_one_iff.1 h1
  have hnm : (construct ft ids).nm = (merge ((leaves ft ids).length - 1) (leaves ft ids) (List.range (leaves ft ids).length)).1 := rfl
  have hroot : (construct ft ids).root = r := by simp [construct, hr]
  rw [← hnm] at hi
  rw [hr] at hi
  have hlen : (construct ft ids).nm.length = 2 * (leaves ft ids).length - 1 := by
    have := hi.size; simp at this; omega
  have hq : ∀ i, QueuedAt (construct ft ids).nm (construct ft ids).nm.length i ↔ i = r := fun i => by
    rw [← hi.queued i]; simp
  have hlast : QueuedAt (construct ft ids).nm (construct ft ids).nm.length ((construct ft ids).nm.length - 1) :=
    ⟨by omega, fun m hm hc => by have := (hi.child_lt hv hc).1; omega⟩
  refine ⟨h2, hi.start, hlen, ?_, hv, hi.merged, by rw [hroot]; exact hq, ?_⟩
  · rw [hroot]; exact ((hq _).1 hlast).symm
  · have := hi.weight
    rw [hroot]; simpa using this

namespace BuiltTree

variable {lv nm : List Node} {root : Nat}

theorem leafAt (h : BuiltTree lv nm root) {i : Nat} (hi : i < lv.length) : nodeAt nm i = lv[i] := by
  obtain ⟨made, rfl⟩ := h.start
  rw [nodeAt_append_lt hi, nodeAt_getElem hi]

theorem not_internal (h : BuiltTree lv nm root) {i : Nat} (hi : i < lv.length) : (nodeAt nm i).k = false := by
  rw [h.leafAt hi]; exact h.leaf _ (List.getElem_mem _)

theorem internal_iff (h : BuiltTree lv nm root) {i : Nat} :
    (nodeAt nm i).k = true ↔ lv.length ≤ i ∧ i < nm.length := by
  constructor
  · intro hk
    refine ⟨?_, lt_length_of_k hk⟩
    by_contra hc
    rw [h.not_internal (by omega)] at hk; contradiction
  · rintro ⟨h1, h2⟩
    rw [(h.merged i h1 h2).node]

theorem root_lt (h : BuiltTree lv nm root) : root < nm.length := by
  have := h.last; have := h.length; have := h.two; omega

theorem root_internal (h : BuiltTree lv nm root) : (nodeAt nm root).k = true := by
  have := h.last; have := h.length; have := h.two
  exact h.internal_iff.2 ⟨by omega, by omega⟩

theorem child_lt (h : BuiltTree lv nm root) {j i : Nat} (hc : IsChildOf nm j i) : j < i := by
  obtain ⟨h1, h2⟩ := h.internal_iff.1 hc.1
  have hm := h.merged i h1 h2
  rcases hc.2 with rfl | rfl
  · exact hm.left.1
  · exact hm.right.1

theorem left_lt (h : BuiltTree lv nm root) {i : Nat} (hk : (nodeAt nm i).k = true) : (nodeAt nm i).l < i :=
  h.child_lt ⟨hk, .inl rfl⟩

theorem right_lt (h : BuiltTree lv nm root) {i : Nat} (hk : (nodeAt nm i).k = true) : (nodeAt nm i).r < i :=
  h.child_lt ⟨hk, .inr rfl⟩

/-- "Each internal node exclusively owns its two children": no node has two parents (R25, R49 item 4). -/
theorem parent_unique (h : BuiltTree lv nm root) {j i i' : Nat} (hc : IsChildOf nm j i) (hc' : IsChildOf nm j i') :
    i = i' := by
  have key : ∀ {a b : Nat}, IsChildOf nm j a → IsChildOf nm j b → ¬ a < b := by
    intro a b ha hb hlt
    obtain ⟨h1, h2⟩ := h.internal_iff.1 hb.1
    have hm := h.merged b h1 h2
    have hq : QueuedAt nm b j := by
      rcases hb.2 with rfl | rfl
      · exact hm.left
      · exact hm.right
    exact hq.2 a hlt ha
  have := key hc hc'; have := key hc' hc; omega

theorem root_no_parent (h : BuiltTree lv nm root) (i : Nat) : ¬ IsChildOf nm root i := fun hc =>
  ((h.queued root).2 rfl).2 i (lt_length_of_k hc.1) hc

theorem exists_parent (h : BuiltTree lv nm root) {j : Nat} (hj : j < nm.length) (hne : j ≠ root) :
    ∃ i, IsChildOf nm j i := by
  by_contra hc
  exact hne ((h.queued j).1 ⟨hj, fun m _ hm => hc ⟨m, hm⟩⟩)

theorem weight_child (h : BuiltTree lv nm root) {j i : Nat} (hc : IsChildOf nm j i) :
    (nodeAt nm j).w ≤ (nodeAt nm i).w := by
  obtain ⟨h1, h2⟩ := h.internal_iff.1 hc.1
  have hm := (h.merged i h1 h2).node
  have e : (nodeAt nm i).w = (nodeAt nm (nodeAt nm i).l).w + (nodeAt nm (nodeAt nm i).r).w := by
    conv_lhs => rw [hm]
  rcases hc.2 with rfl | rfl <;> omega

/-- No weight is above the root's (R118). -/
theorem weight_le (h : BuiltTree lv nm root) (i : Nat) : (nodeAt nm i).w ≤ (nodeAt nm root).w := by
  by_cases hi : i < nm.length
  · induction hd : nm.length - i using Nat.strongRecOn generalizing i with
    | _ d ih =>
      by_cases hr : i = root
      · rw [hr]
      · obtain ⟨m, hm⟩ := h.exists_parent hi hr
        have := h.child_lt hm
        have hml := lt_length_of_k hm.1
        exact (h.weight_child hm).trans (ih _ (by omega) m hml rfl)
  · rw [nodeAt_of_ge (by omega)]; simp [Node.zero]

end BuiltTree

/-! Paths (R119). -/

theorem follow_append (nm : List Node) (i : Nat) (p q : Bits) :
    follow nm i (p ++ q) = (follow nm i p).bind fun m => follow nm m q := by
  induction p generalizing i with
  | nil => rfl
  | cons b p ih =>
    simp only [List.cons_append, follow]
    split
    · exact ih _
    · rfl

/-- A path that leads anywhere from a leaf is empty. -/
theorem follow_leaf {nm : List Node} {i j : Nat} {p : Bits} (hk : (nodeAt nm i).k = false) (h : follow nm i p = some j) :
    p = [] ∧ j = i := by
  cases p with
  | nil => simp [follow] at h; exact ⟨rfl, h.symm⟩
  | cons b p => simp [follow, hk] at h

/-- The last step of a path. -/
theorem follow_snoc {nm : List Node} {i j : Nat} {p : Bits} {b : Bool} :
    follow nm i (p ++ [b]) = some j ↔ ∃ m, follow nm i p = some m ∧ (nodeAt nm m).k = true ∧
      (if b then (nodeAt nm m).r else (nodeAt nm m).l) = j := by
  rw [follow_append]
  cases hm : follow nm i p with
  | none => simp
  | some m => by_cases hk : (nodeAt nm m).k = true <;> simp [follow, hk]

/-- From the root only one path leads to a node (R120). -/
theorem BuiltTree.path_unique {lv nm : List Node} {root : Nat} (h : BuiltTree lv nm root) {p q : Bits} {j : Nat}
    (hp : follow nm root p = some j) (hq : follow nm root q = some j) : p = q := by
  induction p using List.reverseRecOn generalizing q j with
  | nil =>
    rcases List.eq_nil_or_concat q with rfl | ⟨q, c, rfl⟩
    · rfl
    · rw [List.concat_eq_append, follow_snoc] at hq
      obtain ⟨m, -, hk, hc⟩ := hq
      simp [follow] at hp
      subst hp
      exact absurd ⟨hk, by cases c <;> simp_all⟩ (h.root_no_parent m)
  | append_singleton p b ih =>
    rw [follow_snoc] at hp
    obtain ⟨m, hm, hk, hc⟩ := hp
    have hchild : IsChildOf nm j m := ⟨hk, by cases b <;> simp_all⟩
    rcases List.eq_nil_or_concat q with rfl | ⟨q, c, rfl⟩
    · simp [follow] at hq
      subst hq
      exact absurd hchild (h.root_no_parent m)
    · rw [List.concat_eq_append] at hq ⊢
      rw [follow_snoc] at hq
      obtain ⟨m', hm', hk', hc'⟩ := hq
      obtain rfl := h.parent_unique hchild (i' := m') ⟨hk', by cases c <;> simp_all⟩
      rw [ih hm hm']
      obtain ⟨h1, h2⟩ := h.internal_iff.1 hk
      have := (h.merged m h1 h2).ne
      cases b <;> cases c <;> simp_all

/-- A path is no longer than the number of internal nodes there are below its start (R92 row 5). -/
theorem BuiltTree.path_length {lv nm : List Node} {root : Nat} (h : BuiltTree lv nm root) {p : Bits} {i j : Nat}
    (hp : follow nm i p = some j) : p.length ≤ i + 1 - lv.length := by
  induction p generalizing i with
  | nil => simp
  | cons b p ih =>
    rw [follow] at hp
    split at hp
    · rename_i hk
      have h1 := (h.internal_iff.1 hk).1
      have h2 := ih hp
      have := h.left_lt hk; have := h.right_lt hk
      simp only [List.length_cons]
      cases b <;> simp at h2 <;> omega
    · simp at hp

end Sys2Proof.Machine
end

