-- ==== Sys2Proof/Laws/Code.lean ====
section
/-! SUPPORT. What `derive` makes of a built tree (R119, R120): the code of a symbol is the path to its leaf. -/

namespace Sys2Proof.Machine

/-- What a visit from node `i` records for a symbol: the path to a leaf of the symbol at or below `i`, where there is one;
otherwise what was recorded before (R119). -/
theorem visit_spec {nm : List Node} (hl : ∀ i, (nodeAt nm i).k = true → (nodeAt nm i).l < i)
    (hr : ∀ i, (nodeAt nm i).k = true → (nodeAt nm i).r < i) (id : Nat) :
    ∀ (d i : Nat) (path : Bits) (ct : Store Bits), i < d → (path ≠ [] ∨ (nodeAt nm i).k = true) →
      (∃ q j, follow nm i q = some j ∧ IsLeafOf nm j id ∧ Store.get [] (visit nm d i path ct) id = path ++ q) ∨
      ((∀ q j, follow nm i q = some j → ¬ IsLeafOf nm j id) ∧
        Store.get [] (visit nm d i path ct) id = Store.get [] ct id) := by
  intro d
  induction d with
  | zero => intro i path ct hi; omega
  | succ d ih =>
    intro i path ct hi hp
    unfold visit
    by_cases hk : (nodeAt nm i).k = true
    · simp only [hk, if_true]
      have := hl i hk; have := hr i hk
      have hR := ih (nodeAt nm i).r (path ++ [true]) (visit nm d (nodeAt nm i).l (path ++ [false]) ct) (by omega)
        (.inl (by simp))
      have hL := ih (nodeAt nm i).l (path ++ [false]) ct (by omega) (.inl (by simp))
      rcases hR with ⟨q, j, hq, hj, he⟩ | ⟨hnR, heR⟩
      · exact .inl ⟨true :: q, j, by simp [follow, hk, hq], hj, by rw [he]; simp⟩
      · rcases hL with ⟨q, j, hq, hj, he⟩ | ⟨hnL, heL⟩
        · exact .inl ⟨false :: q, j, by simp [follow, hk, hq], hj, by rw [heR, he]; simp⟩
        · refine .inr ⟨fun q j hq hj => ?_, heR.trans heL⟩
          cases q with
          | nil =>
            simp [follow] at hq; subst hq
            have := hj.1; rw [hk] at this; contradiction
          | cons b q =>
            simp only [follow, hk, if_true] at hq
            cases b
            · exact hnL q j hq hj
            · exact hnR q j hq hj
    · have hk' : (nodeAt nm i).k = false := by simpa using hk
      rw [if_neg hk]
      by_cases hph : (nodeAt nm i).ph = true
      · rw [if_pos hph]
        refine .inr ⟨fun q j hq hj => ?_, rfl⟩
        obtain ⟨-, rfl⟩ := follow_leaf hk' hq
        have := hj.2.1; rw [hph] at this; contradiction
      · rw [if_neg hph]
        have hpath : path ≠ [] := hp.resolve_right hk
        by_cases hs : (nodeAt nm i).sym = id
        · subst hs
          exact .inl ⟨[], i, rfl, ⟨hk', by simpa using hph, rfl⟩, by rw [Store.get_set_self (.inl hpath)]; simp⟩
        · refine .inr ⟨fun q j hq hj => ?_, Store.get_set_ne (Ne.symm hs)⟩
          obtain ⟨-, rfl⟩ := follow_leaf hk' hq
          exact hs hj.2.2

/-- What `derive` records: the path from the root to a leaf of the symbol, or nothing where no path leads to one. -/
theorem BuiltTree.derive_cases {lv nm : List Node} {root : Nat} (h : BuiltTree lv nm root) (id : Nat) :
    (∃ j, follow nm root (Store.get [] (derive nm root) id) = some j ∧ IsLeafOf nm j id ∧
      Store.get [] (derive nm root) id ≠ []) ∨
    ((∀ q j, follow nm root q = some j → ¬ IsLeafOf nm j id) ∧ Store.get [] (derive nm root) id = []) := by
  rcases visit_spec (fun i => h.left_lt) (fun i => h.right_lt) id nm.length root [] [] h.root_lt (.inr h.root_internal)
    with ⟨q, j, hq, hj, he⟩ | ⟨hn, he⟩
  · rw [List.nil_append] at he
    have he' : Store.get [] (derive nm root) id = q := he
    refine .inl ⟨j, by rw [he']; exact hq, hj, ?_⟩
    rw [he']
    rintro rfl
    simp [follow] at hq; subst hq
    have := hj.1; rw [h.root_internal] at this; contradiction
  · exact .inr ⟨hn, he⟩

/-- Every node is led to by some path from the root (R49 item 4). -/
theorem BuiltTree.exists_path {lv nm : List Node} {root : Nat} (h : BuiltTree lv nm root) {j : Nat} (hj : j < nm.length) :
    ∃ p, follow nm root p = some j := by
  induction hd : nm.length - j using Nat.strongRecOn generalizing j with
  | _ d ih =>
    by_cases hr : j = root
    · exact ⟨[], by rw [hr]; rfl⟩
    · obtain ⟨m, hm⟩ := h.exists_parent hj hr
      have := h.child_lt hm
      obtain ⟨p, hp⟩ := ih _ (by have := lt_length_of_k hm.1; omega) (lt_length_of_k hm.1) rfl
      rcases hm.2 with hc | hc
      · exact ⟨p ++ [false], follow_snoc.2 ⟨m, hp, hm.1, by simpa using hc⟩⟩
      · exact ⟨p ++ [true], follow_snoc.2 ⟨m, hp, hm.1, by simpa using hc⟩⟩

/-- No two real leaves carry one symbol. -/
abbrev LeavesDistinct (nm : List Node) : Prop := ∀ i j id, i < nm.length → j < nm.length → IsLeafOf nm i id → IsLeafOf nm j id → i = j

/-- A path that leads to a listed node ends below the length of the memory. -/
theorem BuiltTree.follow_lt {lv nm : List Node} {root : Nat} (h : BuiltTree lv nm root) {p : Bits} {i j : Nat}
    (hi : i < nm.length) (hp : follow nm i p = some j) : j < nm.length := by
  induction p generalizing i with
  | nil => simp [follow] at hp; omega
  | cons b p ih =>
    rw [follow] at hp
    split at hp
    · rename_i hk
      have := h.left_lt hk; have := h.right_lt hk
      exact ih (by cases b <;> simp <;> omega) hp
    · simp at hp

/-- The code table of a built tree is exactly the paths to its real leaves (R119). -/
theorem BuiltTree.derive_iff {lv nm : List Node} {root : Nat} (h : BuiltTree lv nm root) (hd : LeavesDistinct nm)
    {id : Nat} {p : Bits} (hp : p ≠ []) :
    Store.get [] (derive nm root) id = p ↔ ∃ j, follow nm root p = some j ∧ IsLeafOf nm j id := by
  rcases h.derive_cases id with ⟨j, hj, hleaf, -⟩ | ⟨hn, he⟩
  · constructor
    · rintro rfl; exact ⟨j, hj, hleaf⟩
    · rintro ⟨j', hj', hleaf'⟩
      have := hd j j' id (h.follow_lt h.root_lt hj) (h.follow_lt h.root_lt hj') hleaf hleaf'
      subst this
      exact h.path_unique hj hj'
  · constructor
    · intro hc; exact absurd (hc.symm.trans he) hp
    · rintro ⟨j, hj, hleaf⟩; exact absurd hleaf (hn p j hj)

/-- No code starts with another symbol's code (R120). -/
theorem BuiltTree.derive_noCommonStart {lv nm : List Node} {root : Nat} (h : BuiltTree lv nm root) {a b : Nat}
    (ha : Store.get [] (derive nm root) a ≠ []) (hb : Store.get [] (derive nm root) b ≠ []) (hne : a ≠ b) :
    ¬ Store.get [] (derive nm root) a <+: Store.get [] (derive nm root) b := by
  rintro ⟨q, hq⟩
  rcases h.derive_cases a with ⟨i, hi, hia, -⟩ | ⟨-, he⟩
  · rcases h.derive_cases b with ⟨j, hj, hjb, -⟩ | ⟨-, he⟩
    · rw [← hq, follow_append, hi] at hj
      obtain ⟨-, rfl⟩ := follow_leaf hia.1 hj
      exact hne (hia.2.2.symm.trans hjb.2.2)
    · exact hb he
  · exact ha he

/-! The leaves of a table's tree (R112, R113). -/

theorem mem_present {c : Config} {ft : Store Nat} {id : Nat} :
    id ∈ present c ft ↔ id < c.nsym ∧ 1 ≤ Store.get 0 ft id := by simp [present]

theorem present_nodup (c : Config) (ft : Store Nat) : (present c ft).Nodup := List.nodup_range.filter _

theorem present_length (c : Config) (ft : Store Nat) : (present c ft).length ≤ c.nsym := by
  have := List.length_filter_le (fun id => decide (1 ≤ Store.get 0 ft id)) (List.range c.nsym)
  simpa [present] using this

theorem leaves_getElem {ft : Store Nat} {ids : List Nat} {i : Nat} (hi : i < ids.length)
    (h : i < (leaves ft ids).length) : (leaves ft ids)[i] = realLeaf ft ids[i] := by
  simp [leaves, List.getElem_append_left, hi]

theorem leaves_phantom {ft : Store Nat} {ids : List Nat} {i : Nat} (hi : ids.length ≤ i)
    (h : i < (leaves ft ids).length) : (leaves ft ids)[i] = phantomLeaf ∧ ids.length = 1 := by
  by_cases h1 : ids.length = 1
  · have h2 : (leaves ft ids).length = 2 := by simp [leaves, h1]
    refine ⟨?_, h1⟩
    obtain rfl : i = 1 := by omega
    simp [leaves, h1, List.getElem_append_right]
  · have : (leaves ft ids).length = ids.length := by simp [leaves, h1]
    omega

/-- Which nodes of a built tree are real leaves, and of which symbols. -/
theorem isLeafOf_iff {ft : Store Nat} {ids : List Nat} {nm : List Node} {root : Nat}
    (h : BuiltTree (leaves ft ids) nm root) {i id : Nat} (hi : i < nm.length) :
    IsLeafOf nm i id ↔ ∃ h : i < ids.length, ids[i] = id := by
  by_cases hl : i < (leaves ft ids).length
  · unfold IsLeafOf
    rw [h.leafAt hl]
    by_cases hr : i < ids.length
    · rw [leaves_getElem hr hl]; simp [realLeaf, hr]
    · rw [(leaves_phantom (by omega) hl).1]; simp [phantomLeaf, hr]
  · constructor
    · intro hc
      have := h.internal_iff.2 ⟨by omega, hi⟩
      rw [hc.1] at this; contradiction
    · rintro ⟨hr, -⟩
      have : ids.length ≤ (leaves ft ids).length := by simp [leaves]
      omega

theorem leavesDistinct {ft : Store Nat} {ids : List Nat} {nm : List Node} {root : Nat}
    (h : BuiltTree (leaves ft ids) nm root) (hn : ids.Nodup) : LeavesDistinct nm := by
  intro i j id hi hj hii hjj
  obtain ⟨h1, h2⟩ := (isLeafOf_iff h hi).1 hii
  obtain ⟨h3, h4⟩ := (isLeafOf_iff h hj).1 hjj
  exact (hn.getElem_inj_iff).1 (h2.trans h4.symm)

/-- Exactly the symbols of the leaves have a code (R120). -/
theorem derive_ne_nil_iff {ft : Store Nat} {ids : List Nat} {nm : List Node} {root : Nat}
    (h : BuiltTree (leaves ft ids) nm root) (id : Nat) : Store.get [] (derive nm root) id ≠ [] ↔ id ∈ ids := by
  constructor
  · intro hne
    rcases h.derive_cases id with ⟨j, hj, hleaf, -⟩ | ⟨-, he⟩
    · obtain ⟨h1, h2⟩ := (isLeafOf_iff h (h.follow_lt h.root_lt hj)).1 hleaf
      exact h2 ▸ List.getElem_mem h1
    · exact absurd he hne
  · intro hm
    obtain ⟨i, hi, rfl⟩ := List.getElem_of_mem hm
    have hlt : i < nm.length := by
      have := h.length; have := h.two
      have : ids.length ≤ (leaves ft ids).length := by simp [leaves]
      omega
    obtain ⟨p, hp⟩ := h.exists_path hlt
    rcases h.derive_cases ids[i] with ⟨-, -, -, hne⟩ | ⟨hn, -⟩
    · exact hne
    · exact absurd ((isLeafOf_iff h hlt).2 ⟨hi, rfl⟩) (hn p i hp)

/-- A visit keeps the code table canonical. -/
theorem visit_wf {nm : List Node} {n : Nat} (h : ∀ i, (nodeAt nm i).sym < n) :
    ∀ (d i : Nat) (path : Bits) (ct : Store Bits), Store.wf [] n ct → Store.wf [] n (visit nm d i path ct) := by
  intro d
  induction d with
  | zero => exact fun _ _ _ hw => hw
  | succ d ih =>
    intro i path ct hw
    unfold visit
    split
    · exact ih _ _ _ (ih _ _ _ hw)
    · split
      · exact hw
      · exact Store.wf_set hw (h i) path

/-- The code table of a built tree is canonical (R28). -/
theorem derive_wf {c : Config} {ft : Store Nat} {nm : List Node} {root : Nat}
    (h : BuiltTree (leaves ft (present c ft)) nm root) : Store.wf [] c.nsym (derive nm root) := by
  have hpos : 0 < c.nsym := Nat.succ_pos _
  refine visit_wf (fun i => ?_) _ _ _ _ (Store.wf_nil _ _)
  by_cases hi : i < nm.length
  · by_cases hl : i < (leaves ft (present c ft)).length
    · rw [h.leafAt hl]
      by_cases hr : i < (present c ft).length
      · rw [leaves_getElem hr hl]
        exact (mem_present.1 (List.getElem_mem hr)).1
      · rw [(leaves_phantom (by omega) hl).1]
        exact hpos
    · rw [(h.merged i (by omega) hi).node]
      exact hpos
  · rw [nodeAt_of_ge (by omega)]
    exact hpos

/-- A phantom leaf is in the tree only where there is one real leaf (R113). -/
theorem phantom_only {ft : Store Nat} {ids : List Nat} {nm : List Node} {root : Nat}
    (h : BuiltTree (leaves ft ids) nm root) {i : Nat} (hk : (nodeAt nm i).k = false)
    (hp : (nodeAt nm i).ph = true) : ids.length = 1 ∧ i = 1 := by
  by_cases hl : i < (leaves ft ids).length
  · rw [h.leafAt hl] at hp
    by_cases hr : i < ids.length
    · rw [leaves_getElem hr hl] at hp; simp [realLeaf] at hp
    · have := (leaves_phantom (by omega) hl).2
      have h2 : (leaves ft ids).length = 2 := by simp [leaves, this]
      exact ⟨this, by omega⟩
  · by_cases hlt : i < nm.length
    · rw [h.internal_iff.2 ⟨by omega, hlt⟩] at hk; contradiction
    · rw [nodeAt_of_ge (by omega)] at hp; simp [Node.zero] at hp

end Sys2Proof.Machine
end

