-- ==== Sys2Proof/Laws/Decode.lean ====
section
/-! SUPPORT. What each format's fields read on a word of that format (R72), which is what a round trip of decode and encode
rests on, and how a word is put together again from its fields. -/

namespace Sys2Proof

/-- The low field of a concatenation. -/
theorem extract_low {m n : Nat} (a : BitVec m) (b : BitVec n) : (a ++ b).extractLsb' 0 n = b := by
  apply BitVec.eq_of_getLsbD_eq
  intro i hi
  simp [BitVec.getLsbD_append, hi]

/-- A field inside the low part of a concatenation. -/
theorem extract_inside {m n s l : Nat} (a : BitVec m) (b : BitVec n) (h : s + l ≤ n) :
    (a ++ b).extractLsb' s l = b.extractLsb' s l := by
  apply BitVec.eq_of_getLsbD_eq
  intro i hi
  simp [BitVec.getLsbD_append, hi, show s + i < n by omega]

/-- The high field of a concatenation. -/
theorem extract_high {m n : Nat} (a : BitVec m) (b : BitVec n) : (a ++ b).extractLsb' n m = a := by
  apply BitVec.eq_of_getLsbD_eq
  intro i hi
  simp [BitVec.getLsbD_append, hi]

theorem getLsbD_inside {m n i : Nat} (a : BitVec m) (b : BitVec n) (h : i < n) : (a ++ b).getLsbD i = b.getLsbD i := by
  simp [BitVec.getLsbD_append, h]

/-- Two adjacent fields make one. -/
theorem extract_join {n : Nat} (w : BitVec n) (s l m : Nat) :
    w.extractLsb' (s + l) m ++ w.extractLsb' s l = w.extractLsb' s (m + l) := by
  apply BitVec.eq_of_getLsbD_eq
  intro i hi
  rw [BitVec.getLsbD_append]
  by_cases h : i < l
  · simp [h, hi]
  · have h1 : i - l < m := by omega
    have h2 : s + l + (i - l) = s + i := by omega
    simp [h, h1, h2, hi]

/-- A one-bit field is its bit. -/
theorem extract_bit {n : Nat} (w : BitVec n) (i : Nat) : w.extractLsb' i 1 = BitVec.ofBool (w.getLsbD i) := by
  apply BitVec.eq_of_getLsbD_eq
  intro j hj
  obtain rfl : j = 0 := by omega
  cases h : w.getLsbD i <;> simp [h]

/-- A word is its opcode and its 26-bit argument field (R71). -/
theorem opcode_append_arg (w : Word) : opcode w ++ w.extractLsb' 0 26 = w := by
  have := extract_join w 0 26 6
  simp at this
  rw [opcode, this]

/-! The opcode of a word of each format. -/

theorem opcode_append (op : BitVec 6) (x : BitVec 26) : opcode (op ++ x) = op := extract_high op x
theorem opcode_wordN (op : BitVec 6) : opcode (wordN op) = op := extract_high op 0#26
theorem opcode_wordS (op : BitVec 6) (S : Bool) (c : BitVec 21) : opcode (wordS op S c) = op := extract_high op _
theorem opcode_wordR (op : BitVec 6) (a : BitVec 4) : opcode (wordR op a) = op := extract_high op _
theorem opcode_wordW (op : BitVec 6) (a : BitVec 4) (v : BitVec 22) : opcode (wordW op a v) = op := extract_high op _
theorem opcode_wordL (op : BitVec 6) (n : BitVec 5) (b : BitVec 16) : opcode (wordL op n b) = op := extract_high op _
theorem opcode_wordI (op : BitVec 6) (i : BitVec 26) : opcode (wordI op i) = op := extract_high op _
theorem opcode_wordB (op : BitVec 6) (b : Byte) : opcode (wordB op b) = op := extract_high op _

/-! A word of a format, read by that format, gives its operands back. -/

theorem formatN_wordN (op : BitVec 6) (i : Instr) : formatN (wordN op) i = .ok i := by
  rw [formatN, wordN, extract_low, if_pos rfl]

theorem formatS_wordS (op : BitVec 6) (S : Bool) (c : BitVec 21) (mk : Bool → BitVec 21 → Instr) :
    formatS (wordS op S c) mk = .ok (mk S c) := by
  have h1 : (wordS op S c).extractLsb' 22 4 = 0#4 := by
    rw [wordS, extract_inside op _ (by omega), extract_high]
  have h2 : (wordS op S c).extractLsb' 0 21 = c := by
    rw [wordS, extract_inside op _ (by omega), extract_inside 0#4 _ (by omega), extract_low]
  have h3 : (wordS op S c).getLsbD 21 = S := by
    rw [wordS, getLsbD_inside op _ (by omega), getLsbD_inside 0#4 _ (by omega), BitVec.getLsbD_append]
    simp
  simp only [formatS, h1, h2, h3, if_true]

theorem formatR_wordR (op : BitVec 6) (a : BitVec 4) (mk : BitVec 4 → Instr) :
    formatR (wordR op a) mk = .ok (mk a) := by
  have h1 : (wordR op a).extractLsb' 4 22 = 0#22 := by
    rw [wordR, extract_inside op _ (by omega), extract_high]
  have h2 : (wordR op a).extractLsb' 0 4 = a := by
    rw [wordR, extract_inside op _ (by omega), extract_low]
  simp only [formatR, h1, h2, if_true]

theorem formatW_wordW (op : BitVec 6) (a : BitVec 4) (v : BitVec 22) (mk : BitVec 4 → BitVec 22 → Instr) :
    formatW (wordW op a v) mk = .ok (mk a v) := by
  have h1 : (wordW op a v).extractLsb' 22 4 = a := by
    rw [wordW, extract_inside op _ (by omega), extract_high]
  have h2 : (wordW op a v).extractLsb' 0 22 = v := by
    rw [wordW, extract_inside op _ (by omega), extract_low]
  simp only [formatW, h1, h2]

theorem formatL_wordL (op : BitVec 6) (n : BitVec 5) (b : BitVec 16) (mk : BitVec 5 → BitVec 16 → Instr) :
    formatL (wordL op n b) mk = .ok (mk n b) := by
  have h1 : (wordL op n b).extractLsb' 21 5 = 0#5 := by
    rw [wordL, extract_inside op _ (by omega), extract_high]
  have h2 : (wordL op n b).extractLsb' 16 5 = n := by
    rw [wordL, extract_inside op _ (by omega), extract_inside 0#5 _ (by omega), extract_high]
  have h3 : (wordL op n b).extractLsb' 0 16 = b := by
    rw [wordL, extract_inside op _ (by omega), extract_inside 0#5 _ (by omega), extract_low]
  simp only [formatL, h1, h2, h3, if_true]

theorem formatI_wordI (op : BitVec 6) (x : BitVec 26) (mk : BitVec 26 → Instr) :
    formatI (wordI op x) mk = .ok (mk x) := by
  simp only [formatI, wordI, extract_low]

theorem formatB_wordB (op : BitVec 6) (b : Byte) (mk : Byte → Instr) :
    formatB (wordB op b) mk = .ok (mk b) := by
  have h1 : (wordB op b).extractLsb' 8 18 = 0#18 := by
    rw [wordB, extract_inside op _ (by omega), extract_high]
  have h2 : (wordB op b).extractLsb' 0 8 = b := by
    rw [wordB, extract_inside op _ (by omega), extract_low]
  simp only [formatB, h1, h2, if_true]

/-! A word whose "zero" field is 0 is the word of its opcode and its operand fields. -/

theorem wordN_of_zero {w : Word} (h : w.extractLsb' 0 26 = 0#26) : wordN (opcode w) = w := by
  rw [wordN, ← h, opcode_append_arg]

theorem wordS_of_zero {w : Word} (h : w.extractLsb' 22 4 = 0#4) :
    wordS (opcode w) (w.getLsbD 21) (w.extractLsb' 0 21) = w := by
  rw [wordS, ← h, ← extract_bit w 21, extract_join w 0 21 1, extract_join w 0 22 4, opcode_append_arg]

theorem wordR_of_zero {w : Word} (h : w.extractLsb' 4 22 = 0#22) : wordR (opcode w) (w.extractLsb' 0 4) = w := by
  rw [wordR, ← h, extract_join w 0 4 22, opcode_append_arg]

theorem wordW_of_fields (w : Word) : wordW (opcode w) (w.extractLsb' 22 4) (w.extractLsb' 0 22) = w := by
  rw [wordW, extract_join w 0 22 4, opcode_append_arg]

theorem wordL_of_zero {w : Word} (h : w.extractLsb' 21 5 = 0#5) :
    wordL (opcode w) (w.extractLsb' 16 5) (w.extractLsb' 0 16) = w := by
  rw [wordL, ← h, extract_join w 0 16 5, extract_join w 0 21 5, opcode_append_arg]

theorem wordI_of_fields (w : Word) : wordI (opcode w) (w.extractLsb' 0 26) = w := by
  rw [wordI, opcode_append_arg]

theorem wordB_of_zero {w : Word} (h : w.extractLsb' 8 18 = 0#18) : wordB (opcode w) (w.extractLsb' 0 8) = w := by
  rw [wordB, ← h, extract_join w 0 8 18, opcode_append_arg]

/-! The same with the opcode known, which is how a decoded word is put together again. -/

theorem wordN_eq {w : Word} {op : BitVec 6} (ho : opcode w = op) (h : w.extractLsb' 0 26 = 0#26) : wordN op = w := by
  subst ho; exact wordN_of_zero h

theorem wordS_eq {w : Word} {op : BitVec 6} (ho : opcode w = op) (h : w.extractLsb' 22 4 = 0#4) :
    wordS op (w.getLsbD 21) (w.extractLsb' 0 21) = w := by
  subst ho; exact wordS_of_zero h

theorem wordR_eq {w : Word} {op : BitVec 6} (ho : opcode w = op) (h : w.extractLsb' 4 22 = 0#22) :
    wordR op (w.extractLsb' 0 4) = w := by
  subst ho; exact wordR_of_zero h

theorem wordW_eq {w : Word} {op : BitVec 6} (ho : opcode w = op) :
    wordW op (w.extractLsb' 22 4) (w.extractLsb' 0 22) = w := by
  subst ho; exact wordW_of_fields w

theorem wordL_eq {w : Word} {op : BitVec 6} (ho : opcode w = op) (h : w.extractLsb' 21 5 = 0#5) :
    wordL op (w.extractLsb' 16 5) (w.extractLsb' 0 16) = w := by
  subst ho; exact wordL_of_zero h

theorem wordI_eq {w : Word} {op : BitVec 6} (ho : opcode w = op) : wordI op (w.extractLsb' 0 26) = w := by
  subst ho; exact wordI_of_fields w

theorem wordB_eq {w : Word} {op : BitVec 6} (ho : opcode w = op) (h : w.extractLsb' 8 18 = 0#18) :
    wordB op (w.extractLsb' 0 8) = w := by
  subst ho; exact wordB_of_zero h

/-! A format accepts a word exactly when its "zero" field is 0. -/

theorem formatN_ok {w : Word} {i j : Instr} : formatN w i = .ok j ↔ w.extractLsb' 0 26 = 0#26 ∧ i = j := by
  unfold formatN; split <;> simp_all

theorem formatS_ok {w : Word} {mk : Bool → BitVec 21 → Instr} {j : Instr} :
    formatS w mk = .ok j ↔ w.extractLsb' 22 4 = 0#4 ∧ mk (w.getLsbD 21) (w.extractLsb' 0 21) = j := by
  unfold formatS; split <;> simp_all

theorem formatR_ok {w : Word} {mk : BitVec 4 → Instr} {j : Instr} :
    formatR w mk = .ok j ↔ w.extractLsb' 4 22 = 0#22 ∧ mk (w.extractLsb' 0 4) = j := by
  unfold formatR; split <;> simp_all

theorem formatW_ok {w : Word} {mk : BitVec 4 → BitVec 22 → Instr} {j : Instr} :
    formatW w mk = .ok j ↔ mk (w.extractLsb' 22 4) (w.extractLsb' 0 22) = j := by
  unfold formatW; simp

theorem formatL_ok {w : Word} {mk : BitVec 5 → BitVec 16 → Instr} {j : Instr} :
    formatL w mk = .ok j ↔ w.extractLsb' 21 5 = 0#5 ∧ mk (w.extractLsb' 16 5) (w.extractLsb' 0 16) = j := by
  unfold formatL; split <;> simp_all

theorem formatI_ok {w : Word} {mk : BitVec 26 → Instr} {j : Instr} :
    formatI w mk = .ok j ↔ mk (w.extractLsb' 0 26) = j := by
  unfold formatI; simp

theorem formatB_ok {w : Word} {mk : Byte → Instr} {j : Instr} :
    formatB w mk = .ok j ↔ w.extractLsb' 8 18 = 0#18 ∧ mk (w.extractLsb' 0 8) = j := by
  unfold formatB; split <;> simp_all

/-- The number a concatenation stands for. -/
theorem toNat_append_add {m n : Nat} (a : BitVec m) (b : BitVec n) : (a ++ b).toNat = a.toNat * 2 ^ n + b.toNat := by
  rw [BitVec.toNat_append, ← Nat.shiftLeft_add_eq_or_of_lt b.isLt, Nat.shiftLeft_eq]

/-! The number a word of each format stands for (R72, R76): the opcode, and the operand fields in their places. -/

theorem wordN_toNat (op : BitVec 6) : (wordN op).toNat = op.toNat * 2 ^ 26 := by
  simp only [wordN, toNat_append_add]; simp

theorem wordS_toNat (op : BitVec 6) (S : Bool) (c : BitVec 21) :
    (wordS op S c).toNat = op.toNat * 2 ^ 26 + S.toNat * 2 ^ 21 + c.toNat := by
  simp only [wordS, toNat_append_add]; cases S <;> simp [Nat.add_assoc]

theorem wordR_toNat (op : BitVec 6) (a : BitVec 4) : (wordR op a).toNat = op.toNat * 2 ^ 26 + a.toNat := by
  simp only [wordR, toNat_append_add]; simp

theorem wordW_toNat (op : BitVec 6) (a : BitVec 4) (v : BitVec 22) :
    (wordW op a v).toNat = op.toNat * 2 ^ 26 + a.toNat * 2 ^ 22 + v.toNat := by
  simp only [wordW, toNat_append_add]; omega

theorem wordL_toNat (op : BitVec 6) (n : BitVec 5) (b : BitVec 16) :
    (wordL op n b).toNat = op.toNat * 2 ^ 26 + n.toNat * 2 ^ 16 + b.toNat := by
  simp only [wordL, toNat_append_add]; simp; omega

theorem wordI_toNat (op : BitVec 6) (x : BitVec 26) : (wordI op x).toNat = op.toNat * 2 ^ 26 + x.toNat := by
  simp only [wordI, toNat_append_add]

theorem wordB_toNat (op : BitVec 6) (b : Byte) : (wordB op b).toNat = op.toNat * 2 ^ 26 + b.toNat := by
  simp only [wordB, toNat_append_add]; simp

/-- Matching under a mask of the bits from `k` up compares those bits (R75); every mask of R76 is of this form. -/
theorem and_highMask_iff (w p : Word) (k : Nat) (hp : p &&& (BitVec.allOnes 32 <<< k) = p) :
    w &&& (BitVec.allOnes 32 <<< k) = p ↔ w.extractLsb' k (32 - k) = p.extractLsb' k (32 - k) := by
  constructor
  · rintro rfl
    apply BitVec.eq_of_getLsbD_eq
    intro i hi
    simp only [BitVec.getLsbD_extractLsb', BitVec.getLsbD_and, BitVec.getLsbD_shiftLeft, BitVec.getLsbD_allOnes]
    simp [hi, show k + i < 32 by omega, show i < 32 by omega]
  · intro h
    apply BitVec.eq_of_getLsbD_eq
    intro i hi
    have hpi := congrArg (·.getLsbD i) hp
    simp only [BitVec.getLsbD_and, BitVec.getLsbD_shiftLeft, BitVec.getLsbD_allOnes] at hpi ⊢
    by_cases hk : i < k
    · simp [hk] at hpi ⊢; exact hpi
    · have hw := congrArg (·.getLsbD (i - k)) h
      simp only [BitVec.getLsbD_extractLsb', show i - k < 32 - k by omega, show k + (i - k) = i by omega] at hw
      simp [hi, hk, show i - k < 32 by omega] at hw ⊢
      exact hw

/-- A word with a known opcode and no bit set between bit `k` and the opcode matches the opcode's pattern under the mask of
the bits from `k` up. -/
theorem matches_of_fields {w : Word} {op : BitVec 6} (k : Nat) (hk26 : k ≤ 26)
    (ho : opcode w = op) (hz : w.extractLsb' k (26 - k) = 0#(26 - k)) : w &&& (BitVec.allOnes 32 <<< k) = (op ++ 0#26 : BitVec 32) := by
  subst ho
  apply BitVec.eq_of_getLsbD_eq
  intro i hi
  simp only [BitVec.getLsbD_and, BitVec.getLsbD_shiftLeft, BitVec.getLsbD_allOnes, BitVec.getLsbD_append, opcode,
    BitVec.getLsbD_extractLsb']
  by_cases h26 : i < 26
  · by_cases hk : i < k
    · simp [h26, hk]
    · have hw := congrArg (·.getLsbD (i - k)) hz
      simp only [BitVec.getLsbD_extractLsb', show i - k < 26 - k by omega, show k + (i - k) = i by omega] at hw
      simp at hw
      simp [h26, hw]
  · by_cases hk : i < k
    · omega
    · simp [h26, hk, hi, show i - 26 < 6 by omega, show 26 + (i - 26) = i by omega]
      omega

/-- The 18 ways a word selects a command (R74 steps 1 and 2, R76): its opcode, its format and its operand fields. -/
theorem decode_ok {w : Word} {i : Instr} (h : decode w = .ok i) :
    (opcode w = 0x01#6 ∧ formatN w .nop = .ok i) ∨ (opcode w = 0x02#6 ∧ formatR w .csrr = .ok i) ∨
    (opcode w = 0x03#6 ∧ formatW w .csrw = .ok i) ∨ (opcode w = 0x04#6 ∧ formatN w .srst = .ok i) ∨
    (opcode w = 0x08#6 ∧ formatN w .fclr = .ok i) ∨ (opcode w = 0x09#6 ∧ formatS w .fsym = .ok i) ∨
    (opcode w = 0x0A#6 ∧ formatS w .frd = .ok i) ∨ (opcode w = 0x10#6 ∧ formatN w .build = .ok i) ∨
    (opcode w = 0x11#6 ∧ formatN w .derive = .ok i) ∨ (opcode w = 0x18#6 ∧ formatS w .esym = .ok i) ∨
    (opcode w = 0x20#6 ∧ formatN w .drun = .ok i) ∨ (opcode w = 0x21#6 ∧ formatN w .dend = .ok i) ∨
    (opcode w = 0x28#6 ∧ formatN w .bclr = .ok i) ∨ (opcode w = 0x29#6 ∧ formatL w .bput = .ok i) ∨
    (opcode w = 0x2A#6 ∧ formatI w .bget = .ok i) ∨ (opcode w = 0x2B#6 ∧ formatN w .pack = .ok i) ∨
    (opcode w = 0x2C#6 ∧ formatB w .ubyte = .ok i) ∨ (opcode w = 0x2D#6 ∧ formatN w .uend = .ok i) := by
  unfold decode at h
  split at h <;> rename_i e <;> first | (exact absurd h (by simp)) | simp [e, h]

end Sys2Proof
end

