-- ==== Sys2Proof/Laws/State.lean ====
section
/-! SUPPORT. One lemma per field per update of the state: ending a command, recording a fault, resetting, installing a
built tree, presenting a word. Proofs rewrite with these and unfold no record update. -/

namespace Sys2Proof.Machine

/-! Ending a command (`State.answer`). -/

@[simp] theorem State.answer_cfg (s : State) (items : List Item) (t : Terminal) :
    (s.answer items t).cfg = s.cfg := rfl
@[simp] theorem State.answer_ft (s : State) (items : List Item) (t : Terminal) :
    (s.answer items t).ft = s.ft := rfl
@[simp] theorem State.answer_nm (s : State) (items : List Item) (t : Terminal) :
    (s.answer items t).nm = s.nm := rfl
@[simp] theorem State.answer_nleaf (s : State) (items : List Item) (t : Terminal) :
    (s.answer items t).nleaf = s.nleaf := rfl
@[simp] theorem State.answer_nnode (s : State) (items : List Item) (t : Terminal) :
    (s.answer items t).nnode = s.nnode := rfl
@[simp] theorem State.answer_root (s : State) (items : List Item) (t : Terminal) :
    (s.answer items t).root = s.root := rfl
@[simp] theorem State.answer_tree (s : State) (items : List Item) (t : Terminal) :
    (s.answer items t).tree = s.tree := rfl
@[simp] theorem State.answer_codes (s : State) (items : List Item) (t : Terminal) :
    (s.answer items t).codes = s.codes := rfl
@[simp] theorem State.answer_ct (s : State) (items : List Item) (t : Terminal) :
    (s.answer items t).ct = s.ct := rfl
@[simp] theorem State.answer_bb (s : State) (items : List Item) (t : Terminal) :
    (s.answer items t).bb = s.bb := rfl
@[simp] theorem State.answer_ust (s : State) (items : List Item) (t : Terminal) :
    (s.answer items t).ust = s.ust := rfl
@[simp] theorem State.answer_pad (s : State) (items : List Item) (t : Terminal) :
    (s.answer items t).pad = s.pad := rfl
@[simp] theorem State.answer_udat (s : State) (items : List Item) (t : Terminal) :
    (s.answer items t).udat = s.udat := rfl
@[simp] theorem State.answer_dptr (s : State) (items : List Item) (t : Terminal) :
    (s.answer items t).dptr = s.dptr := rfl
@[simp] theorem State.answer_ecause (s : State) (items : List Item) (t : Terminal) :
    (s.answer items t).ecause = s.ecause := rfl
@[simp] theorem State.answer_einfo (s : State) (items : List Item) (t : Terminal) :
    (s.answer items t).einfo = s.einfo := rfl
@[simp] theorem State.answer_eolchar (s : State) (items : List Item) (t : Terminal) :
    (s.answer items t).eolchar = s.eolchar := rfl
@[simp] theorem State.answer_cmdseq (s : State) (items : List Item) (t : Terminal) :
    (s.answer items t).cmdseq = s.cmdseq + 1 := rfl
@[simp] theorem State.answer_input (s : State) (items : List Item) (t : Terminal) :
    (s.answer items t).input = s.input := rfl
@[simp] theorem State.answer_out (s : State) (items : List Item) (t : Terminal) :
    (s.answer items t).out = s.out ++ [.answered items t] := rfl

/-! Recording a fault (`State.recordFault`). -/

@[simp] theorem State.recordFault_cfg (s : State) (c : Cause) (w : Word) :
    (s.recordFault c w).cfg = s.cfg := rfl
@[simp] theorem State.recordFault_ft (s : State) (c : Cause) (w : Word) :
    (s.recordFault c w).ft = s.ft := rfl
@[simp] theorem State.recordFault_nm (s : State) (c : Cause) (w : Word) :
    (s.recordFault c w).nm = s.nm := rfl
@[simp] theorem State.recordFault_nleaf (s : State) (c : Cause) (w : Word) :
    (s.recordFault c w).nleaf = s.nleaf := rfl
@[simp] theorem State.recordFault_nnode (s : State) (c : Cause) (w : Word) :
    (s.recordFault c w).nnode = s.nnode := rfl
@[simp] theorem State.recordFault_root (s : State) (c : Cause) (w : Word) :
    (s.recordFault c w).root = s.root := rfl
@[simp] theorem State.recordFault_tree (s : State) (c : Cause) (w : Word) :
    (s.recordFault c w).tree = s.tree := rfl
@[simp] theorem State.recordFault_codes (s : State) (c : Cause) (w : Word) :
    (s.recordFault c w).codes = s.codes := rfl
@[simp] theorem State.recordFault_ct (s : State) (c : Cause) (w : Word) :
    (s.recordFault c w).ct = s.ct := rfl
@[simp] theorem State.recordFault_bb (s : State) (c : Cause) (w : Word) :
    (s.recordFault c w).bb = s.bb := rfl
@[simp] theorem State.recordFault_ust (s : State) (c : Cause) (w : Word) :
    (s.recordFault c w).ust = s.ust := rfl
@[simp] theorem State.recordFault_pad (s : State) (c : Cause) (w : Word) :
    (s.recordFault c w).pad = s.pad := rfl
@[simp] theorem State.recordFault_udat (s : State) (c : Cause) (w : Word) :
    (s.recordFault c w).udat = s.udat := rfl
@[simp] theorem State.recordFault_dptr (s : State) (c : Cause) (w : Word) :
    (s.recordFault c w).dptr = s.dptr := rfl
@[simp] theorem State.recordFault_ecause (s : State) (c : Cause) (w : Word) :
    (s.recordFault c w).ecause = c.code := rfl
@[simp] theorem State.recordFault_einfo (s : State) (c : Cause) (w : Word) :
    (s.recordFault c w).einfo = w := rfl
@[simp] theorem State.recordFault_eolchar (s : State) (c : Cause) (w : Word) :
    (s.recordFault c w).eolchar = s.eolchar := rfl
@[simp] theorem State.recordFault_cmdseq (s : State) (c : Cause) (w : Word) :
    (s.recordFault c w).cmdseq = s.cmdseq := rfl
@[simp] theorem State.recordFault_input (s : State) (c : Cause) (w : Word) :
    (s.recordFault c w).input = s.input := rfl
@[simp] theorem State.recordFault_out (s : State) (c : Cause) (w : Word) :
    (s.recordFault c w).out = s.out := rfl

/-! Reset (`State.cleared`). -/

@[simp] theorem State.cleared_cfg (s : State) :
    (s.cleared).cfg = s.cfg := rfl
@[simp] theorem State.cleared_ft (s : State) :
    (s.cleared).ft = [] := rfl
@[simp] theorem State.cleared_nm (s : State) :
    (s.cleared).nm = [] := rfl
@[simp] theorem State.cleared_nleaf (s : State) :
    (s.cleared).nleaf = 0 := rfl
@[simp] theorem State.cleared_nnode (s : State) :
    (s.cleared).nnode = 0 := rfl
@[simp] theorem State.cleared_root (s : State) :
    (s.cleared).root = 0 := rfl
@[simp] theorem State.cleared_tree (s : State) :
    (s.cleared).tree = false := rfl
@[simp] theorem State.cleared_codes (s : State) :
    (s.cleared).codes = false := rfl
@[simp] theorem State.cleared_ct (s : State) :
    (s.cleared).ct = [] := rfl
@[simp] theorem State.cleared_bb (s : State) :
    (s.cleared).bb = [] := rfl
@[simp] theorem State.cleared_ust (s : State) :
    (s.cleared).ust = .hdr := rfl
@[simp] theorem State.cleared_pad (s : State) :
    (s.cleared).pad = 0 := rfl
@[simp] theorem State.cleared_udat (s : State) :
    (s.cleared).udat = false := rfl
@[simp] theorem State.cleared_dptr (s : State) :
    (s.cleared).dptr = 0 := rfl
@[simp] theorem State.cleared_ecause (s : State) :
    (s.cleared).ecause = 0 := rfl
@[simp] theorem State.cleared_einfo (s : State) :
    (s.cleared).einfo = 0 := rfl
@[simp] theorem State.cleared_eolchar (s : State) :
    (s.cleared).eolchar = BitVec.ofNat 21 (0x0A % 2 ^ s.cfg.symW) := rfl
@[simp] theorem State.cleared_cmdseq (s : State) :
    (s.cleared).cmdseq = 0 := rfl
@[simp] theorem State.cleared_input (s : State) :
    (s.cleared).input = s.input := rfl
@[simp] theorem State.cleared_out (s : State) :
    (s.cleared).out = s.out := rfl

/-! Installing a built tree (`State.withTree`). -/

@[simp] theorem State.withTree_cfg (s : State) (b : Built) :
    (s.withTree b).cfg = s.cfg := rfl
@[simp] theorem State.withTree_ft (s : State) (b : Built) :
    (s.withTree b).ft = s.ft := rfl
@[simp] theorem State.withTree_nm (s : State) (b : Built) :
    (s.withTree b).nm = b.nm := rfl
@[simp] theorem State.withTree_nleaf (s : State) (b : Built) :
    (s.withTree b).nleaf = b.nleaf := rfl
@[simp] theorem State.withTree_nnode (s : State) (b : Built) :
    (s.withTree b).nnode = b.nnode := rfl
@[simp] theorem State.withTree_root (s : State) (b : Built) :
    (s.withTree b).root = b.root := rfl
@[simp] theorem State.withTree_tree (s : State) (b : Built) :
    (s.withTree b).tree = true := rfl
@[simp] theorem State.withTree_codes (s : State) (b : Built) :
    (s.withTree b).codes = true := rfl
@[simp] theorem State.withTree_ct (s : State) (b : Built) :
    (s.withTree b).ct = derive b.nm b.root := rfl
@[simp] theorem State.withTree_bb (s : State) (b : Built) :
    (s.withTree b).bb = s.bb := rfl
@[simp] theorem State.withTree_ust (s : State) (b : Built) :
    (s.withTree b).ust = s.ust := rfl
@[simp] theorem State.withTree_pad (s : State) (b : Built) :
    (s.withTree b).pad = s.pad := rfl
@[simp] theorem State.withTree_udat (s : State) (b : Built) :
    (s.withTree b).udat = s.udat := rfl
@[simp] theorem State.withTree_dptr (s : State) (b : Built) :
    (s.withTree b).dptr = b.root := rfl
@[simp] theorem State.withTree_ecause (s : State) (b : Built) :
    (s.withTree b).ecause = s.ecause := rfl
@[simp] theorem State.withTree_einfo (s : State) (b : Built) :
    (s.withTree b).einfo = s.einfo := rfl
@[simp] theorem State.withTree_eolchar (s : State) (b : Built) :
    (s.withTree b).eolchar = s.eolchar := rfl
@[simp] theorem State.withTree_cmdseq (s : State) (b : Built) :
    (s.withTree b).cmdseq = s.cmdseq := rfl
@[simp] theorem State.withTree_input (s : State) (b : Built) :
    (s.withTree b).input = s.input := rfl
@[simp] theorem State.withTree_out (s : State) (b : Built) :
    (s.withTree b).out = s.out := rfl

/-! Presenting a word (`State.withFetchWord`). -/

@[simp] theorem State.withFetchWord_cfg (s : State) (nbits w : Nat) :
    (s.withFetchWord nbits w).cfg = s.cfg := rfl
@[simp] theorem State.withFetchWord_ft (s : State) (nbits w : Nat) :
    (s.withFetchWord nbits w).ft = s.ft := rfl
@[simp] theorem State.withFetchWord_nm (s : State) (nbits w : Nat) :
    (s.withFetchWord nbits w).nm = s.nm := rfl
@[simp] theorem State.withFetchWord_nleaf (s : State) (nbits w : Nat) :
    (s.withFetchWord nbits w).nleaf = s.nleaf := rfl
@[simp] theorem State.withFetchWord_nnode (s : State) (nbits w : Nat) :
    (s.withFetchWord nbits w).nnode = s.nnode := rfl
@[simp] theorem State.withFetchWord_root (s : State) (nbits w : Nat) :
    (s.withFetchWord nbits w).root = s.root := rfl
@[simp] theorem State.withFetchWord_tree (s : State) (nbits w : Nat) :
    (s.withFetchWord nbits w).tree = s.tree := rfl
@[simp] theorem State.withFetchWord_codes (s : State) (nbits w : Nat) :
    (s.withFetchWord nbits w).codes = s.codes := rfl
@[simp] theorem State.withFetchWord_ct (s : State) (nbits w : Nat) :
    (s.withFetchWord nbits w).ct = s.ct := rfl
@[simp] theorem State.withFetchWord_bb (s : State) (nbits w : Nat) :
    (s.withFetchWord nbits w).bb = s.bb := rfl
@[simp] theorem State.withFetchWord_ust (s : State) (nbits w : Nat) :
    (s.withFetchWord nbits w).ust = s.ust := rfl
@[simp] theorem State.withFetchWord_pad (s : State) (nbits w : Nat) :
    (s.withFetchWord nbits w).pad = s.pad := rfl
@[simp] theorem State.withFetchWord_udat (s : State) (nbits w : Nat) :
    (s.withFetchWord nbits w).udat = s.udat := rfl
@[simp] theorem State.withFetchWord_dptr (s : State) (nbits w : Nat) :
    (s.withFetchWord nbits w).dptr = s.dptr := rfl
@[simp] theorem State.withFetchWord_ecause (s : State) (nbits w : Nat) :
    (s.withFetchWord nbits w).ecause = s.ecause := rfl
@[simp] theorem State.withFetchWord_einfo (s : State) (nbits w : Nat) :
    (s.withFetchWord nbits w).einfo = s.einfo := rfl
@[simp] theorem State.withFetchWord_eolchar (s : State) (nbits w : Nat) :
    (s.withFetchWord nbits w).eolchar = s.eolchar := rfl
@[simp] theorem State.withFetchWord_cmdseq (s : State) (nbits w : Nat) :
    (s.withFetchWord nbits w).cmdseq = s.cmdseq := rfl
@[simp] theorem State.withFetchWord_input (s : State) (nbits w : Nat) :
    (s.withFetchWord nbits w).input = .cmd (tableWord nbits w) :: s.input := rfl
@[simp] theorem State.withFetchWord_out (s : State) (nbits w : Nat) :
    (s.withFetchWord nbits w).out = s.out := rfl

/-! Reads of the stores through an update that leaves the store alone. -/

@[simp] theorem State.answer_count (s : State) (items : List Item) (t : Terminal) (id : Nat) :
    (s.answer items t).count id = s.count id := rfl
@[simp] theorem State.answer_code (s : State) (items : List Item) (t : Terminal) (id : Nat) :
    (s.answer items t).code id = s.code id := rfl
@[simp] theorem State.answer_node (s : State) (items : List Item) (t : Terminal) (i : Nat) :
    (s.answer items t).node i = s.node i := rfl
@[simp] theorem State.recordFault_count (s : State) (c : Cause) (w : Word) (id : Nat) :
    (s.recordFault c w).count id = s.count id := rfl
@[simp] theorem State.recordFault_code (s : State) (c : Cause) (w : Word) (id : Nat) :
    (s.recordFault c w).code id = s.code id := rfl
@[simp] theorem State.recordFault_node (s : State) (c : Cause) (w : Word) (i : Nat) :
    (s.recordFault c w).node i = s.node i := rfl

end Sys2Proof.Machine
end

