-- ==== Sys2Proof/Laws/Exec.lean ====
section
/-! SUPPORT. What a command can do, said once (`exec_cases`): it takes a fault of its own causes, or it completes with the
fault record left alone, or it is `SRST`. Proofs about every command cite this and unfold no meaning. -/

namespace Sys2Proof.Machine

/-- Appending to BB either does not fit or changes BB only (R92 row 6). -/
theorem State.append_cases (s : State) (bits : Bits) :
    (s.cfg.bbCap < s.bb.length + bits.length ∧ s.append bits = none) ∨
    (s.bb.length + bits.length ≤ s.cfg.bbCap ∧ s.append bits = some { s with bb := s.bb ++ bits }) := by
  unfold State.append
  by_cases h : s.bb.length + bits.length > s.cfg.bbCap
  · exact .inl ⟨h, if_pos h⟩
  · exact .inr ⟨by omega, if_neg h⟩

/-- The walk of `DRUN` emits SYM items only (R141). -/
theorem State.walk_items (s : State) (bits : Bits) (p : Nat) : ∀ x ∈ (s.walk bits p).1, ∃ v, x = Item.sym v := by
  induction bits generalizing p with
  | nil => simp [State.walk]
  | cons b bits ih =>
    unfold State.walk
    dsimp only
    split
    · exact ih _
    · split
      · simp
      · intro x hx
        rcases List.mem_cons.1 hx with rfl | hx
        · exact ⟨_, rfl⟩
        · exact ih _ x hx

/-- The command takes a fault: of its own causes, with void items only for `DRUN` (R188, R194). -/
def TakesFault (i : Instr) (s : State) : Prop :=
  ∃ items c, exec i s = raiseAfter s items c (encode i) ∧ mayRaise i c = true ∧ c ≠ .ioError ∧
    (items ≠ [] → i = .drun) ∧ ∀ x ∈ items, ∃ v, x = Item.sym v

/-- The command completes: CMDSEQ, the parameters, the host's input and the replies are as `complete` leaves them, and
the fault record is as before, but for `CSRW ECAUSE, 0` (R32, R90 step 5). -/
def Completes (i : Instr) (s : State) : Prop :=
  ∃ u items t, exec i s = complete u items t ∧ (∀ c, t ≠ .err c) ∧ u.cfg = s.cfg ∧ u.input = s.input ∧ u.out = s.out ∧
    u.cmdseq = s.cmdseq ∧ (i ≠ .csrw 0x3#4 0#22 → u.ecause = s.ecause ∧ u.einfo = s.einfo)

theorem takesFault_of_raise {i : Instr} {s : State} {c : Cause} (h : exec i s = raise s c (encode i))
    (hm : mayRaise i c = true) (hc : c ≠ .ioError) : TakesFault i s :=
  ⟨[], c, h, hm, hc, fun h => absurd rfl h, by simp⟩

theorem completes_of {i : Instr} {s u : State} {items : List Item} {t : Terminal} (h : exec i s = complete u items t)
    (ht : ∀ c, t ≠ .err c) (hu : u.cfg = s.cfg ∧ u.input = s.input ∧ u.out = s.out ∧ u.cmdseq = s.cmdseq)
    (hf : i ≠ .csrw 0x3#4 0#22 → u.ecause = s.ecause ∧ u.einfo = s.einfo) : Completes i s :=
  ⟨u, items, t, h, ht, hu.1, hu.2.1, hu.2.2.1, hu.2.2.2, hf⟩

theorem exec_cases (i : Instr) (s : State) : TakesFault i s ∨ Completes i s ∨ i = .srst := by
  cases i with
  | srst => exact .inr (.inr rfl)
  | nop => exact .inr (.inl (completes_of (by rfl) (by simp) (by simp) (by simp)))
  | csrr addr =>
    cases h : s.csrRead addr with
    | none => exact .inl (takesFault_of_raise (c := .illegalCommand) (by simp [exec, execCsrr, h]) rfl (by simp))
    | some v => exact .inr (.inl (completes_of (u := s) (items := []) (t := .value v) (by simp [exec, execCsrr, h]) (by simp) (by simp) (by simp)))
  | csrw addr v =>
    by_cases ha : addr = 0x3#4
    · by_cases hv : v = 0#22
      · subst ha; subst hv
        exact .inr (.inl (completes_of (by simp [exec, execCsrw]; rfl) (by simp) (by simp) (by simp)))
      · exact .inl (takesFault_of_raise (c := .illegalCommand) (by simp [exec, execCsrw, ha, hv]) rfl (by simp))
    · by_cases hb : addr = 0x6#4
      · by_cases hv : v.toNat < 2 ^ s.cfg.symW
        · exact .inr (.inl (completes_of (by simp [exec, execCsrw, hb, hv]; rfl) (by simp) (by simp) (by simp)))
        · exact .inl (takesFault_of_raise (c := .illegalCommand) (by simp [exec, execCsrw, hb, hv]) rfl (by simp))
      · exact .inl (takesFault_of_raise (c := .illegalCommand) (by simp [exec, execCsrw, ha, hb]) rfl (by simp))
  | fclr => exact .inr (.inl (completes_of (by rfl) (by simp) (by simp) (by simp)))
  | fsym S char =>
    cases h : symid s.cfg S char with
    | none => exact .inl (takesFault_of_raise (c := .illegalCommand) (by simp [exec, execFsym, h]) rfl (by simp))
    | some id =>
      by_cases hc : s.count id = s.cfg.cntMax
      · exact .inl (takesFault_of_raise (c := .capacityExceeded) (by simp [exec, execFsym, h, hc]) rfl (by simp))
      · exact .inr (.inl (completes_of (by simp [exec, execFsym, h, hc]; rfl) (by simp) (by simp) (by simp)))
  | frd S char =>
    cases h : symid s.cfg S char with
    | none => exact .inl (takesFault_of_raise (c := .illegalCommand) (by simp [exec, execFrd, h]) rfl (by simp))
    | some id => exact .inr (.inl (completes_of (by simp [exec, execFrd, h]; rfl) (by simp) (by simp) (by simp)))
  | build =>
    by_cases h : present s.cfg s.ft = []
    · exact .inl (takesFault_of_raise (c := .emptyInput) (by simp [exec, execBuild, h]) rfl (by simp))
    · exact .inr (.inl (completes_of (by simp [exec, execBuild, h]; rfl) (by simp) (by simp) (by simp)))
  | derive =>
    cases h : s.tree with
    | false => exact .inl (takesFault_of_raise (c := .uninitializedCode) (by simp [exec, execDerive, h]) rfl (by simp))
    | true => exact .inr (.inl (completes_of (by simp [exec, execDerive, h]; rfl) (by simp) (by simp) (by simp)))
  | esym S char =>
    cases h : symid s.cfg S char with
    | none => exact .inl (takesFault_of_raise (c := .illegalCommand) (by simp [exec, execEsym, h]) rfl (by simp))
    | some id =>
      cases hc : s.codes with
      | false =>
        exact .inl (takesFault_of_raise (c := .uninitializedCode) (by simp [exec, execEsym, h, hc]) rfl (by simp))
      | true =>
        by_cases hl : s.code id = []
        · exact .inl (takesFault_of_raise (c := .unknownSymbol) (by simp [exec, execEsym, h, hc, hl]) rfl (by simp))
        · rcases s.append_cases (s.code id) with ⟨-, ha⟩ | ⟨-, ha⟩
          · exact .inl (takesFault_of_raise (c := .capacityExceeded) (by simp [exec, execEsym, h, hc, hl, ha]) rfl
              (by simp))
          · exact .inr (.inl (completes_of (by simp [exec, execEsym, h, hc, hl, ha]; rfl) (by simp) (by simp) (by simp)))
  | drun =>
    cases hc : s.codes with
    | false => exact .inl (takesFault_of_raise (c := .uninitializedCode) (by simp [exec, execDrun, hc]) rfl (by simp))
    | true =>
      have hi := s.walk_items s.bb s.dptr
      rcases hw : s.walk s.bb s.dptr with ⟨items, _ | p⟩
      · rw [hw] at hi
        exact .inl ⟨items, .malformedStream, by simp [exec, execDrun, hc, hw], rfl, by simp, fun _ => rfl, hi⟩
      · exact .inr (.inl (completes_of (by simp [exec, execDrun, hc, hw]; rfl) (by simp) (by simp) (by simp)))
  | dend =>
    cases hc : s.codes with
    | false => exact .inl (takesFault_of_raise (c := .uninitializedCode) (by simp [exec, execDend, hc]) rfl (by simp))
    | true =>
      by_cases hd : s.dptr = s.root
      · exact .inr (.inl (completes_of (u := s) (items := []) (t := .done) (by simp [exec, execDend, hc, hd]) (by simp) (by simp) (by simp)))
      · exact .inl (takesFault_of_raise (c := .malformedStream) (by simp [exec, execDend, hc, hd]) rfl (by simp))
  | bclr => exact .inr (.inl (completes_of (by rfl) (by simp) (by simp) (by simp)))
  | bput n bits =>
    cases h : literal n bits with
    | none => exact .inl (takesFault_of_raise (c := .illegalCommand) (by simp [exec, execBput, h]) rfl (by simp))
    | some lit =>
      rcases s.append_cases lit with ⟨-, ha⟩ | ⟨-, ha⟩
      · exact .inl (takesFault_of_raise (c := .capacityExceeded) (by simp [exec, execBput, h, ha]) rfl (by simp))
      · exact .inr (.inl (completes_of (by simp [exec, execBput, h, ha]; rfl) (by simp) (by simp) (by simp)))
  | bget idx =>
    cases h : s.bb[idx.toNat]? with
    | none => exact .inl (takesFault_of_raise (c := .illegalCommand) (by simp only [exec, execBget, h]) rfl (by simp))
    | some b =>
      exact .inr (.inl (completes_of (by simp only [exec, execBget, h]; rfl) (by simp) (by simp) (by simp)))
  | pack => exact .inr (.inl (completes_of (t := .done) (by rfl) (by simp) (by simp) (by simp)))
  | ubyte b =>
    cases h : s.ust with
    | hdr =>
      by_cases hb : b.toNat > 7
      · exact .inl (takesFault_of_raise (c := .malformedStream) (by simp [exec, execUbyte, h, hb]) rfl (by simp))
      · exact .inr (.inl (completes_of (by simp [exec, execUbyte, h, hb]; rfl) (by simp) (by simp) (by simp)))
    | data =>
      rcases s.append_cases (byteBits b) with ⟨-, ha⟩ | ⟨-, ha⟩
      · exact .inl (takesFault_of_raise (c := .capacityExceeded) (by simp [exec, execUbyte, h, ha]) rfl (by simp))
      · exact .inr (.inl (completes_of (by simp [exec, execUbyte, h, ha]; rfl) (by simp) (by simp) (by simp)))
  | uend =>
    cases h : s.ust with
    | hdr => exact .inl (takesFault_of_raise (c := .malformedStream) (by simp [exec, execUend, h]) rfl (by simp))
    | data =>
      by_cases hp : s.pad ≠ 0#3 ∧ s.udat = false
      · exact .inl (takesFault_of_raise (c := .malformedStream) (by simp [exec, execUend, h, hp]) rfl (by simp))
      · exact .inr (.inl (completes_of (by simp only [exec, execUend, h, hp]; rfl) (by simp) (by simp) (by simp)))

/-- Whatever a command does, it answers a next state with one more reply, the same parameters and the same input. -/
theorem exec_next (i : Instr) (s : State) :
    ∃ t, exec i s = .next t ∧ t.cfg = s.cfg ∧ t.input = s.input ∧
      ∃ items term, t.out = s.out ++ [.answered items term] := by
  rcases exec_cases i s with ⟨items, c, h, -⟩ | ⟨u, items, t, h, -, h1, h2, h3, -⟩ | rfl
  · exact ⟨_, h, rfl, rfl, _, _, rfl⟩
  · exact ⟨_, h, h1, h2, items, t, by simp [h3]⟩
  · exact ⟨_, rfl, rfl, rfl, _, _, rfl⟩

end Sys2Proof.Machine
end

