-- ==== Sys2Proof/Laws/Walk.lean ====
section
/-! SUPPORT. The laws of the decode walk (R141): one bit, two bitstrings one after the other, what the walk depends on, and
that a path to a real leaf emits that leaf's symbol. -/

namespace Sys2Proof.Machine

@[simp] theorem State.walk_nil (s : State) (p : Nat) : s.walk [] p = ([], some p) := rfl

/-- One bit of the walk. -/
theorem State.walk_cons (s : State) (b : Bool) (bs : Bits) (p : Nat) :
    s.walk (b :: bs) p =
      if (s.node (s.child p b)).k then s.walk bs (s.child p b)
      else if (s.node (s.child p b)).ph then ([], none)
      else (.sym (symword s.cfg s.eolchar (s.node (s.child p b)).sym) :: (s.walk bs s.root).1, (s.walk bs s.root).2) := rfl

/-- The walk over two bitstrings is the walk over the first and then, where that ends, over the second. -/
theorem State.walk_append (s : State) (a b : Bits) (p : Nat) :
    s.walk (a ++ b) p =
      match s.walk a p with
      | (items, none) => (items, none)
      | (items, some q) => (items ++ (s.walk b q).1, (s.walk b q).2) := by
  induction a generalizing p with
  | nil => rfl
  | cons x a ih =>
    rw [List.cons_append, State.walk_cons, State.walk_cons]
    split
    · exact ih _
    · split
      · rfl
      · rw [ih]
        rcases s.walk a s.root with ⟨it, _ | q⟩ <;> rfl

/-- The walk reads the tree, the parameters and EOLCHAR, and nothing else. -/
theorem State.walk_congr {s t : State} (hnm : s.nm = t.nm) (hroot : s.root = t.root) (hcfg : s.cfg = t.cfg)
    (heol : s.eolchar = t.eolchar) (bs : Bits) (p : Nat) : s.walk bs p = t.walk bs p := by
  have hn : s.node = t.node := by unfold State.node; rw [hnm]
  have hc : s.child = t.child := by unfold State.child; rw [hn]
  induction bs generalizing p with
  | nil => rfl
  | cons b bs ih => rw [State.walk_cons, State.walk_cons]; simp only [hn, hc, hroot, hcfg, heol, ih]

/-- A path to a real leaf emits the leaf's symbol and goes back to the root. -/
theorem State.walk_follow {s : State} {p : Bits} {i j : Nat} (hne : p ≠ []) (hf : follow s.nm i p = some j)
    (hk : (s.node j).k = false) (hp : (s.node j).ph = false) (bits : Bits) :
    s.walk (p ++ bits) i =
      (.sym (symword s.cfg s.eolchar (s.node j).sym) :: (s.walk bits s.root).1, (s.walk bits s.root).2) := by
  induction p generalizing i with
  | nil => contradiction
  | cons b p ih =>
    rw [List.cons_append, State.walk_cons]
    rw [follow] at hf
    split at hf
    · have hf' : follow s.nm (s.child i b) p = some j := hf
      cases p with
      | nil =>
        simp only [follow, Option.some.injEq] at hf'
        rw [hf', hk, hp]
        simp
      | cons c p =>
        have : (s.node (s.child i b)).k = true := by
          rw [follow] at hf'
          split at hf'
          · assumption
          · cases hf'
        rw [if_pos this]
        exact ih (by simp) hf'
    · cases hf

end Sys2Proof.Machine
end

