-- ==== Sys2Proof/Laws/Input.lean ====
section
/-! SUPPORT. A command does not depend on what the host presents after it (R62, R90): changing `input` before the command
changes `input` after it and nothing else. -/

namespace Sys2Proof.Machine

/-- An outcome with the host's input replaced. -/
def Result.withInput (l : List HostEvent) : Result → Result
  | .next t => .next { t with input := l }
  | .fault f => .fault f
  | .refused r => .refused r

theorem State.walk_withInput (s : State) (l : List HostEvent) (bs : Bits) (p : Nat) :
    State.walk { s with input := l } bs p = s.walk bs p :=
  State.walk_congr (s := { s with input := l }) (t := s) rfl rfl rfl rfl bs p

theorem exec_withInput (i : Instr) (s : State) (l : List HostEvent) :
    exec i { s with input := l } = Result.withInput l (exec i s) := by
  cases i with
  | nop => rfl
  | csrr a =>
    change execCsrr a _ = Result.withInput l (execCsrr a s)
    unfold execCsrr
    have : State.csrRead { s with input := l } a = s.csrRead a := rfl
    rw [this]
    cases s.csrRead a <;> rfl
  | csrw a v =>
    change execCsrw a v _ = Result.withInput l (execCsrw a v s)
    unfold execCsrw
    dsimp only
    repeat' split
    all_goals rfl
  | srst => rfl
  | fclr => rfl
  | fsym S c =>
    change execFsym S c _ = Result.withInput l (execFsym S c s)
    unfold execFsym
    dsimp only
    cases symid s.cfg S c
    · rfl
    · dsimp only
      by_cases h : s.count ‹_› = s.cfg.cntMax
      · rw [if_pos h, if_pos (by exact h)]; rfl
      · rw [if_neg h, if_neg (by exact h)]; rfl
  | frd S c =>
    change execFrd S c _ = Result.withInput l (execFrd S c s)
    unfold execFrd
    dsimp only
    cases symid s.cfg S c <;> rfl
  | build =>
    change execBuild _ = Result.withInput l (execBuild s)
    unfold execBuild
    dsimp only
    split <;> rfl
  | derive =>
    change execDerive _ = Result.withInput l (execDerive s)
    unfold execDerive
    dsimp only
    split <;> rfl
  | esym S c =>
    change execEsym S c _ = Result.withInput l (execEsym S c s)
    unfold execEsym
    dsimp only
    cases symid s.cfg S c
    · rfl
    · rename_i id
      have : State.code { s with input := l } id = s.code id := rfl
      dsimp only
      rw [this]
      unfold State.append
      dsimp only
      by_cases h1 : s.codes = false
      · rw [if_pos h1, if_pos h1]; rfl
      · rw [if_neg h1, if_neg h1]
        by_cases h2 : (s.code id).length = 0
        · rw [if_pos h2, if_pos h2]; rfl
        · rw [if_neg h2, if_neg h2]
          by_cases h3 : s.bb.length + (s.code id).length > s.cfg.bbCap
          · rw [if_pos h3, if_pos h3]; rfl
          · rw [if_neg h3, if_neg h3]; rfl
  | drun =>
    change execDrun _ = Result.withInput l (execDrun s)
    unfold execDrun
    dsimp only
    rw [State.walk_withInput]
    split
    · rfl
    · rcases s.walk s.bb s.dptr with ⟨items, _ | p⟩ <;> rfl
  | dend =>
    change execDend _ = Result.withInput l (execDend s)
    unfold execDend
    repeat' split
    all_goals rfl
  | bclr => rfl
  | bput n b =>
    change execBput n b _ = Result.withInput l (execBput n b s)
    unfold execBput
    rcases hl : literal n b with _ | lit
    · rfl
    · unfold State.append
      dsimp only
      by_cases h : s.bb.length + lit.length > s.cfg.bbCap
      · rw [if_pos h, if_pos h]; rfl
      · rw [if_neg h, if_neg h]; rfl
  | bget idx =>
    change execBget idx _ = Result.withInput l (execBget idx s)
    unfold execBget
    dsimp only
    cases s.bb[idx.toNat]? <;> rfl
  | pack => rfl
  | ubyte b =>
    change execUbyte b _ = Result.withInput l (execUbyte b s)
    unfold execUbyte
    obtain ⟨cfg,_,_,_,_,_,_,_,_,bb,ust,_,_,_,_,_,_,_,_,_⟩ := s
    cases ust <;> dsimp only
    · split <;> rfl
    · unfold State.append
      dsimp only
      by_cases h : bb.length + (byteBits b).length > cfg.bbCap
      · rw [if_pos h, if_pos h]; rfl
      · rw [if_neg h, if_neg h]; rfl
  | uend =>
    change execUend _ = Result.withInput l (execUend s)
    unfold execUend
    obtain ⟨_,_,_,_,_,_,_,_,_,_,ust,_,_,_,_,_,_,_,_,_⟩ := s
    cases ust <;> dsimp only
    · rfl
    · split <;> rfl

/-- The same of a list of commands. -/
theorem execAll_withInput (is : List Instr) (s : State) (l : List HostEvent) :
    execAll is { s with input := l } = Result.withInput l (execAll is s) := by
  induction is generalizing s with
  | nil => rfl
  | cons i is ih =>
    simp only [execAll, exec_withInput]
    cases exec i s <;> simp [Result.withInput, ih]

end Sys2Proof.Machine
end

