-- ==== Sys2Proof/Laws/Invariant.lean ====
section
/-! SUPPORT. The invariant of reachable states under the updates that commands share, and the built tree it gives. -/

namespace Sys2Proof.Machine

/-- While TREE = 1 the node memory holds a built tree, and NLEAF and NNODE count its leaves and nodes (R26, R27). -/
theorem CoreInv.tree_built {s : State} (h : CoreInv s) (ht : s.tree = true) :
    ∃ ft, FtOk s.cfg ft ∧ present s.cfg ft ≠ [] ∧ s.nleaf = (present s.cfg ft).length ∧ s.nnode = s.nm.length ∧
      BuiltTree (leaves ft (present s.cfg ft)) s.nm s.root := by
  obtain ⟨ft, hft, hne, hc⟩ := h.built ht
  have hb := construct_built ft hne
  rw [hc] at hb
  refine ⟨ft, hft, hne, (congrArg Built.nleaf hc).symm, ?_, hb⟩
  have hnm := congrArg Built.nm hc
  have hnn := congrArg Built.nnode hc
  simp only at hnm hnn
  rw [← hnn, ← hnm]
  rfl

/-- Ending a command keeps the invariant. -/
theorem CoreInv.answer {s : State} (h : CoreInv s) (items : List Item) (t : Terminal) : CoreInv (s.answer items t) :=
  ⟨h.cfgOk, h.ftOk, h.ctOk, h.bbOk, h.eolOk, h.causeOk, h.udatOk, h.flagsOk, h.noTree, h.built, h.derived, h.dptrOk⟩

/-- Recording a fault keeps the invariant, but for IOError, which no command raises (R185). -/
theorem CoreInv.recordFault {s : State} (h : CoreInv s) {c : Cause} (hc : c ≠ .ioError) (w : Word) :
    CoreInv (s.recordFault c w) :=
  ⟨h.cfgOk, h.ftOk, h.ctOk, h.bbOk, h.eolOk, by cases c <;> simp [Cause.code] at hc ⊢, h.udatOk, h.flagsOk, h.noTree, h.built,
    h.derived, h.dptrOk⟩

/-- What the host presents is no part of the invariant. -/
theorem CoreInv.withInput {s : State} (h : CoreInv s) (l : List HostEvent) : CoreInv { s with input := l } :=
  ⟨h.cfgOk, h.ftOk, h.ctOk, h.bbOk, h.eolOk, h.causeOk, h.udatOk, h.flagsOk, h.noTree, h.built, h.derived, h.dptrOk⟩

/-- Nor are the replies so far. -/
theorem CoreInv.withOut {s : State} (h : CoreInv s) (l : List Reply) : CoreInv { s with out := l } :=
  ⟨h.cfgOk, h.ftOk, h.ctOk, h.bbOk, h.eolOk, h.causeOk, h.udatOk, h.flagsOk, h.noTree, h.built, h.derived, h.dptrOk⟩

/-- An append that fits keeps the invariant. -/
theorem CoreInv.append {s t : State} {bits : Bits} (h : CoreInv s) (ht : s.append bits = some t) : CoreInv t := by
  rcases s.append_cases bits with ⟨-, hn⟩ | ⟨hle, hs⟩
  · rw [hn] at ht; cases ht
  · rw [hs] at ht
    injection ht with ht
    subst ht
    exact ⟨h.cfgOk, h.ftOk, h.ctOk, by simp only [List.length_append]; exact hle, h.eolOk, h.causeOk, h.udatOk, h.flagsOk,
      h.noTree, h.built, h.derived, h.dptrOk⟩

end Sys2Proof.Machine
end

