-- ==== Sys2Proof/Laws/PerInstr.lean ====
section
/-! SUPPORT. Family `Row`: every command's word selects the row of the opcode map that bears its mnemonic (R75, R76), with
every operand at every value its field admits; one lemma per constructor. -/

namespace Sys2Proof.Laws.Row

/-- The word of `i` satisfies `w & mask = match` of the row named `i.mnemonic` (R75). -/
def Statement (i : Instr) : Prop :=
  ∃ row ∈ opcodeMap, row.mnemonic = i.mnemonic ∧ encode i &&& row.mask = row.pattern

/-- A word that selects a command has opcode and "zero" fields as the command's row fixes them. -/
theorem of_fields {i : Instr} {op : BitVec 6} (m : String) (k : Nat) (hk : k ≤ 26) (hm : m = i.mnemonic)
    (hrow : ⟨m, op ++ 0#26, BitVec.allOnes 32 <<< k⟩ ∈ opcodeMap) (ho : opcode (encode i) = op)
    (hz : (encode i).extractLsb' k (26 - k) = 0#(26 - k)) : Statement i :=
  ⟨_, hrow, hm, matches_of_fields k hk ho hz⟩

theorem nop : Statement .nop :=
  of_fields (op := 0x01#6) "NOP" 0 (by omega) rfl (by decide) (opcode_wordN _) (extract_low _ _)

theorem csrr (addr : BitVec 4) : Statement (.csrr addr) :=
  of_fields (op := 0x02#6) "CSRR" 4 (by omega) rfl (by decide) (opcode_wordR _ _) ((extract_inside _ _ (by omega)).trans (extract_high _ _))

theorem csrw (addr : BitVec 4) (value : BitVec 22) : Statement (.csrw addr value) :=
  of_fields (op := 0x03#6) "CSRW" 26 (by omega) rfl (by decide) (opcode_wordW _ _ _) (BitVec.eq_of_toNat_eq (by simp))

theorem srst : Statement .srst :=
  of_fields (op := 0x04#6) "SRST" 0 (by omega) rfl (by decide) (opcode_wordN _) (extract_low _ _)

theorem fclr : Statement .fclr :=
  of_fields (op := 0x08#6) "FCLR" 0 (by omega) rfl (by decide) (opcode_wordN _) (extract_low _ _)

theorem fsym (S : Bool) (char : BitVec 21) : Statement (.fsym S char) :=
  of_fields (op := 0x09#6) "FSYM" 22 (by omega) rfl (by decide) (opcode_wordS _ _ _) ((extract_inside _ _ (by omega)).trans (extract_high _ _))

theorem frd (S : Bool) (char : BitVec 21) : Statement (.frd S char) :=
  of_fields (op := 0x0A#6) "FRD" 22 (by omega) rfl (by decide) (opcode_wordS _ _ _) ((extract_inside _ _ (by omega)).trans (extract_high _ _))

theorem build : Statement .build :=
  of_fields (op := 0x10#6) "BUILD" 0 (by omega) rfl (by decide) (opcode_wordN _) (extract_low _ _)

theorem derive : Statement .derive :=
  of_fields (op := 0x11#6) "DERIVE" 0 (by omega) rfl (by decide) (opcode_wordN _) (extract_low _ _)

theorem esym (S : Bool) (char : BitVec 21) : Statement (.esym S char) :=
  of_fields (op := 0x18#6) "ESYM" 22 (by omega) rfl (by decide) (opcode_wordS _ _ _) ((extract_inside _ _ (by omega)).trans (extract_high _ _))

theorem drun : Statement .drun :=
  of_fields (op := 0x20#6) "DRUN" 0 (by omega) rfl (by decide) (opcode_wordN _) (extract_low _ _)

theorem dend : Statement .dend :=
  of_fields (op := 0x21#6) "DEND" 0 (by omega) rfl (by decide) (opcode_wordN _) (extract_low _ _)

theorem bclr : Statement .bclr :=
  of_fields (op := 0x28#6) "BCLR" 0 (by omega) rfl (by decide) (opcode_wordN _) (extract_low _ _)

theorem bput (n : BitVec 5) (bits : BitVec 16) : Statement (.bput n bits) :=
  of_fields (op := 0x29#6) "BPUT" 21 (by omega) rfl (by decide) (opcode_wordL _ _ _) ((extract_inside _ _ (by omega)).trans (extract_high _ _))

theorem bget (idx : BitVec 26) : Statement (.bget idx) :=
  of_fields (op := 0x2A#6) "BGET" 26 (by omega) rfl (by decide) (opcode_wordI _ _) (BitVec.eq_of_toNat_eq (by simp))

theorem pack : Statement .pack :=
  of_fields (op := 0x2B#6) "PACK" 0 (by omega) rfl (by decide) (opcode_wordN _) (extract_low _ _)

theorem ubyte (byte : Byte) : Statement (.ubyte byte) :=
  of_fields (op := 0x2C#6) "UBYTE" 8 (by omega) rfl (by decide) (opcode_wordB _ _) ((extract_inside _ _ (by omega)).trans (extract_high _ _))

theorem uend : Statement .uend :=
  of_fields (op := 0x2D#6) "UEND" 0 (by omega) rfl (by decide) (opcode_wordN _) (extract_low _ _)

end Sys2Proof.Laws.Row
end

