-- ==== Sys2Proof/Tests/Slice0.lean ====
section
/-! SUPPORT. Tests. Every expected result is the spec's own worked example (spec/41 to 46, R122) or worked by hand from the
rule named; then, for each obligation with hypotheses, a state and operands that meet them all. -/

namespace Sys2Proof.Tests

open Sys2Proof Sys2Proof.Machine

/-- The state after the word `w` is presented to a core in state `s`. -/
def after (s : State) (w : Word) : State :=
  match step (s.withFetchWord 32 w.toNat) with
  | .next t => t
  | .fault _ => s
  | .refused _ => s

/-- The frequency table of R122: a:2, b:1, sentinel:1, in the reference configuration. -/
def counted : State := { State.reset with ft := [(0x61, 2), (0x62, 1), (256, 1)] }

/-- The node memory R122 gives. -/
def nodes : List Node :=
  [⟨false, false, 2, 0x61, 0, 0⟩, ⟨false, false, 1, 0x62, 0, 0⟩, ⟨false, false, 1, 256, 0, 0⟩, ⟨true, false, 2, 0, 1, 2⟩,
    ⟨true, false, 4, 0, 0, 3⟩]

/-- The state `BUILD` leaves in R122, but for CMDSEQ and the reply. -/
def built : State :=
  { counted with nm := nodes, nleaf := 3, nnode := 5, root := 4, tree := true, codes := true, dptr := 4,
                 ct := [(0x61, [false]), (0x62, [true, false]), (256, [true, true])] }

/-- The tree and codes of a table with one symbol, 'a' counted 3 times (R113). -/
def single : State :=
  { State.reset with ft := [(0x61, 3)],
                     nm := [⟨false, false, 3, 0x61, 0, 0⟩, ⟨false, true, 0, 0, 0, 0⟩, ⟨true, false, 3, 0, 1, 0⟩],
                     nleaf := 1, nnode := 3, root := 2, tree := true, codes := true, dptr := 2, ct := [(0x61, [true])] }

/-- The built state with a bit buffer of at most 3 bits. -/
def narrow : State := { built with cfg := { Config.ref with bbCap := 3 } }

/-- The words of the state's bit buffer. -/
def withBits (s : State) (bb : Bits) : State := { s with bb := bb }

/-- What a presented command answered: the last reply. -/
def answer (s : State) (w : Word) : Option Reply := (after s w).out.getLast?

/-- A command of a core that nothing is presented to, its outcome as a state. -/
def ran (i : Instr) (s : State) : State :=
  match exec i s with
  | .next t => t
  | .fault _ => s
  | .refused _ => s

/-! Decoding: each word is written out field by field from its format (R72) and opcode (R76). -/

theorem test_decode_nop :
    decodeTableWord 32 (0b000001#6 ++ 0b00000000000000000000000000#26 : Word).toNat = some (.nop) := by decide
theorem test_decode_csrr :
    decodeTableWord 32 (0b000010#6 ++ 0b0000000000000000000000#22 ++ 0b0110#4 : Word).toNat = some (.csrr 0x6) := by decide
theorem test_decode_csrw :
    decodeTableWord 32 (0b000011#6 ++ 0b0110#4 ++ 0b0000000000000000001101#22 : Word).toNat = some (.csrw 0x6 0x0D) := by decide
theorem test_decode_srst :
    decodeTableWord 32 (0b000100#6 ++ 0b00000000000000000000000000#26 : Word).toNat = some (.srst) := by decide
theorem test_decode_fclr :
    decodeTableWord 32 (0b001000#6 ++ 0b00000000000000000000000000#26 : Word).toNat = some (.fclr) := by decide
theorem test_decode_fsym :
    decodeTableWord 32 (0b001001#6 ++ 0b0000#4 ++ 0b0#1 ++ 0b000000000000001100001#21 : Word).toNat = some (.fsym false 0x61) := by decide
theorem test_decode_frd :
    decodeTableWord 32 (0b001010#6 ++ 0b0000#4 ++ 0b1#1 ++ 0b000000000000000000000#21 : Word).toNat = some (.frd true 0) := by decide
theorem test_decode_build :
    decodeTableWord 32 (0b010000#6 ++ 0b00000000000000000000000000#26 : Word).toNat = some (.build) := by decide
theorem test_decode_derive :
    decodeTableWord 32 (0b010001#6 ++ 0b00000000000000000000000000#26 : Word).toNat = some (.derive) := by decide
theorem test_decode_esym :
    decodeTableWord 32 (0b011000#6 ++ 0b0000#4 ++ 0b0#1 ++ 0b000000000000001100010#21 : Word).toNat = some (.esym false 0x62) := by decide
theorem test_decode_drun :
    decodeTableWord 32 (0b100000#6 ++ 0b00000000000000000000000000#26 : Word).toNat = some (.drun) := by decide
theorem test_decode_dend :
    decodeTableWord 32 (0b100001#6 ++ 0b00000000000000000000000000#26 : Word).toNat = some (.dend) := by decide
theorem test_decode_bclr :
    decodeTableWord 32 (0b101000#6 ++ 0b00000000000000000000000000#26 : Word).toNat = some (.bclr) := by decide
theorem test_decode_bput :
    decodeTableWord 32 (0b101001#6 ++ 0b00000#5 ++ 0b00111#5 ++ 0b0000000001010110#16 : Word).toNat = some (.bput 7 0x56) := by decide
theorem test_decode_bget :
    decodeTableWord 32 (0b101010#6 ++ 0b00000000000000000000000010#26 : Word).toNat = some (.bget 2) := by decide
theorem test_decode_pack :
    decodeTableWord 32 (0b101011#6 ++ 0b00000000000000000000000000#26 : Word).toNat = some (.pack) := by decide
theorem test_decode_ubyte :
    decodeTableWord 32 (0b101100#6 ++ 0b000000000000000000#18 ++ 0b10101100#8 : Word).toNat = some (.ubyte 0xAC) := by decide
theorem test_decode_uend :
    decodeTableWord 32 (0b101101#6 ++ 0b00000000000000000000000000#26 : Word).toNat = some (.uend) := by decide

/-- An opcode of no row (R77), and a set bit in a "zero" field of each format that has one (R74 step 2). -/
theorem test_decode_rejects :
    ([0x00000000, 0x14000000, 0xB8000000, 0xFC000000, 0x04000001, 0x08000010, 0x24400000, 0xA4200000, 0xB0000100].map
      (decodeTableWord 32)) = List.replicate 9 none := by decide

/-! WellFormed refuses an ill-formed term for each check (R74 step 3). -/

theorem test_wf_refuses_sentinel_with_char : Instr.wf Config.ref (.fsym true 1) = false := by decide
theorem test_wf_refuses_large_char :
    (Instr.wf Config.ref (.frd false 256), Instr.wf Config.ref (.esym false 256)) = (false, false) := by decide
theorem test_wf_takes_largest_char : Instr.wf Config.ref (.esym false 255) = true := by decide
theorem test_wf_refuses_reserved_register :
    (Instr.wf Config.ref (.csrr 0xE), Instr.wf Config.ref (.csrr 0xD)) = (false, true) := by decide
theorem test_wf_refuses_csr_writes :
    [Instr.csrw 0x0 0, .csrw 0x3 1, .csrw 0x6 256, .csrw 0xF 0].map (Instr.wf Config.ref) = List.replicate 4 false := by
  decide
theorem test_wf_refuses_literals :
    [Instr.bput 17 0, .bput 3 8].map (Instr.wf Config.ref) = [false, false] := by decide
theorem test_legal_refuses_index_at_length :
    ((Instr.bget 6).legal Config.ref 6, (Instr.bget 5).legal Config.ref 6) = (false, true) := by decide
theorem test_legalWord_refuses_stray_bit : legalWord Config.ref 0 0x04000001#32 = false := by decide

/-! One step of each command. -/

/-- R170. -/
theorem test_nop : ((after built 0x04000000).cmdseq, answer built 0x04000000) = (1, some (.answered [] .done)) := by decide
/-- R171: CFG in the reference configuration. -/
theorem test_csrr_cfg : answer State.reset 0x08000001 = some (.answered [] (.value 0x00000408)) := by decide
/-- R171, R38: TREE, CODES and DMID while the walk stands on node 3. -/
theorem test_csrr_status : answer { built with dptr := 3 } 0x08000002 = some (.answered [] (.value 0b10011)) := by decide
/-- R172. -/
theorem test_csrw_eolchar : (after built 0x0D80000D).eolchar = 0x0D := by decide
/-- R172: ID is read-only. -/
theorem test_csrw_id : answer built 0x0C000000 = some (.answered [] (.err .illegalCommand)) := by decide
/-- R173: its own completion is not counted. -/
theorem test_srst : ((after built 0x10000000).cmdseq, (after built 0x10000000).tree) = (0, false) := by decide
/-- R100. -/
theorem test_fclr : (after counted 0x20000000).count 0x61 = 0 := by decide
/-- R101. -/
theorem test_fsym : (after counted 0x24200000).count 256 = 2 := by decide
/-- R101, R191: a count at 2^CNT_W - 1 keeps its value. -/
theorem test_fsym_full :
    ((after { counted with cfg := { Config.ref with cntW := 1 }, ft := [(0x61, 1)] } 0x24000061).count 0x61,
      answer { counted with cfg := { Config.ref with cntW := 1 }, ft := [(0x61, 1)] } 0x24000061) =
      (1, some (.answered [] (.err .capacityExceeded))) := by decide
/-- R102. -/
theorem test_frd : (answer counted 0x28200000, answer counted 0x28000063) =
    (some (.answered [] (.value 1)), some (.answered [] (.value 0))) := by decide
/-- R122. -/
theorem test_build_r122 : { after counted 0x40000000 with cmdseq := 0, out := [] } = built := by decide
/-- R181. -/
theorem test_build_empty : ((after State.reset 0x40000000).ecause, (after State.reset 0x40000000).einfo) =
    (1, 0x40000000) := by decide
/-- R121. -/
theorem test_derive_reset : ((after State.reset 0x44000000).ecause, (after State.reset 0x44000000).einfo) =
    (3, 0x44000000) := by decide
/-- R121: CT is unchanged. -/
theorem test_derive_built : (after { built with ct := [] } 0x44000000).ct = built.ct := by decide
/-- R131: 'b' is "10" in the tree of R122. -/
theorem test_esym : (after (withBits built [false, false]) 0x60000062).bb = [false, false, true, false] := by decide
/-- R182: 'c' has no code in the tree of R122. -/
theorem test_esym_unknown : (after built 0x60000063).ecause = 2 := by decide
/-- R141. -/
theorem test_drun : answer (withBits built [false, false, true, false, true, true]) 0x80000000 =
    some (.answered [.sym 0x000061, .sym 0x000061, .sym 0x000062, .sym 0x20000A] .done) := by decide
/-- R141, R184: a 0 on a one-symbol tree; BB and DPTR keep their values. -/
theorem test_drun_phantom : ((after (withBits single [true, false]) 0x80000000).bb,
    answer (withBits single [true, false]) 0x80000000) =
    ([true, false], some (.answered [.sym 0x000061] (.err .malformedStream))) := by decide
/-- R143. -/
theorem test_dend_mid_path : ((after { built with dptr := 3 } 0x84000000).dptr,
    answer { built with dptr := 3 } 0x84000000) = (3, some (.answered [] (.err .malformedStream))) := by decide
/-- R143. -/
theorem test_dend_root : answer built 0x84000000 = some (.answered [] .done) := by decide
/-- R150. -/
theorem test_bclr : ((after { built with dptr := 3, ust := .data, udat := true, pad := 3 } 0xA0000000).dptr,
    (after { built with dptr := 3, ust := .data, udat := true, pad := 3 } 0xA0000000).ust) = (4, .hdr) := by decide
/-- R151: leading zeros are kept. -/
theorem test_bput : (after State.reset 0xA4040001).bb = [false, false, false, true] := by decide
/-- R151: n = 17. -/
theorem test_bput_long : (after State.reset 0xA4110000).ecause = 7 := by decide
/-- R152. -/
theorem test_bget : (answer (withBits built [false, false, true, false, true, true]) 0xA8000002,
    answer (withBits built [false, false, true, false, true, true]) 0xA8000006) =
    (some (.answered [] (.value 1)), some (.answered [] (.err .illegalCommand))) := by decide
/-- R153. -/
theorem test_pack : answer (withBits State.reset [true, false, true, false, true, true, false]) 0xAC000000 =
    some (.answered [.byte 0x01, .byte 0xAC] .done) := by decide
/-- R153 corner case (a). -/
theorem test_pack_empty : answer State.reset 0xAC000000 = some (.answered [.byte 0x00] .done) := by decide
/-- R157. -/
theorem test_ubyte_header : ((after (withBits built [true]) 0xB0000001).pad, (after (withBits built [true]) 0xB0000001).bb,
    (after built 0xB0000009).ecause, (after built 0xB0000009).einfo) = (1, [], 4, 0xB0000009) := by decide
/-- R157. -/
theorem test_ubyte_data : (after { built with ust := .data, pad := 1 } 0xB00000AC).bb =
    [true, false, true, false, true, true, false, false] := by decide
/-- R158. -/
theorem test_uend : (after (withBits { built with ust := .data, pad := 1, udat := true }
    [true, false, true, false, true, true, false, false]) 0xB4000000).bb =
    [true, false, true, false, true, true, false] := by decide
/-- R158: padding claimed and no data byte. -/
theorem test_uend_no_data : (after { built with ust := .data, pad := 3 } 0xB4000000).ecause = 4 := by decide

/-- Every word of the opcode map runs as the first command after reset, and none of them is refused. -/
theorem test_first_command_runs :
    opcodeMap.map (fun row => (after State.reset row.pattern).out.length) = List.replicate 18 1 := by decide

/-- Stores at reset are in canonical form. -/
theorem test_reset_stores : Store.wf 0 State.reset.cfg.nsym State.reset.ft ∧
    Store.wf [] State.reset.cfg.nsym State.reset.ct := by decide

/-- A write of the reset value removes the entry. -/
theorem test_store_canonical : Store.set 0 (Store.set 0 (Store.set 0 [] 5 7) 2 9) 5 0 = [(2, 9)] := by decide

/-- R201: reset after one item of a `PACK` of two. -/
theorem test_reset_during :
    (match step { withBits State.reset [true] with input := [.rstDuring 0xAC000000 1] } with
      | .next t => some t.out
      | .fault _ => none
      | .refused _ => none) = some [.abandoned [.byte 0x07]] := by decide

/-- R80: `DECODE` and `ERRCLR`. -/
theorem test_pseudo : (Pseudo.decode.expand.map encode, Pseudo.errclr.expand.map encode) =
    ([0x80000000, 0x84000000], [0x0CC00000]) := by decide

/-! For each obligation with hypotheses, a state and operands that meet them all; where a statement has several clauses,
each has its own, at the boundary of its range. -/

theorem exec_ran (i : Instr) (s : State) : exec i s = .next (ran i s) := by
  obtain ⟨t, h, -⟩ := exec_next i s
  simp only [ran, h]

/-- A core to which one thing is presented. -/
def presented (s : State) (e : HostEvent) : State := { s with input := [e] }

/-- The state after one step. -/
def stepped (s : State) : State :=
  match step s with
  | .next t => t
  | .fault _ => s
  | .refused _ => s

theorem step_word (s : State) (w : Word) (i : Instr) (h : decode w = .ok i) :
    step (presented s (.cmd w)) = .next (ran i { s with input := [] }) := by
  simp only [step, presented, runWord, h]
  exact exec_ran i _

/-- The invariant holds in the state of R122. -/
theorem test_hyps_CoreInv_built : CoreInv built :=
  ⟨by decide, by decide, by decide, by decide, by decide, by decide, by decide, by decide, by decide,
    fun _ => ⟨counted.ft, by decide, by decide, by decide⟩, by decide, by decide⟩

/-- The invariant holds with a tree of one symbol (R113). -/
theorem test_hyps_CoreInv_single : CoreInv single :=
  ⟨by decide, by decide, by decide, by decide, by decide, by decide, by decide, by decide, by decide,
    fun _ => ⟨single.ft, by decide, by decide, by decide⟩, by decide, by decide⟩

theorem test_hyps_DecodedWordIsItsEncoding : decode 0xA4070056#32 = .ok (.bput 7 0x56) := rfl

theorem test_hyps_RowSelectedByMaskAndMatch :
    ⟨"UBYTE", 0xB0000000#32, 0xFFFFFF00#32⟩ ∈ opcodeMap ∧ (0xB00000AC#32 &&& 0xFFFFFF00#32) = 0xB0000000#32 := by decide

theorem test_hyps_SymbolOperandNamesSymbol : (1#21 ≠ 0#21) ∧ (255#21).toNat < 2 ^ Config.ref.symW ∧
    2 ^ Config.ref.symW ≤ (256#21).toNat := by decide

/-- One word for each way a command is illegal: no row; S = 1 with char 1; char 256; register 0xE; a write of ID, of ECAUSE
with 1, of EOLCHAR with 256; n = 17; bit 3 set with n = 3; idx = BBLEN. -/
theorem test_hyps_IllegalCommandOnExactlyTheseWords :
    [0x00000000, 0x24200001, 0x60000100, 0x0800000E, 0x0C000000, 0x0CC00001, 0x0D800100, 0xA4110000, 0xA4030008,
      0xA8000003].map (legalWord Config.ref 3) = List.replicate 10 false ∧
    [0x24200000, 0x600000FF, 0x0800000D, 0x0CC00000, 0x0D8000FF, 0xA4100000, 0xA4030007, 0xA8000002].map
      (legalWord Config.ref 3) = List.replicate 8 true ∧
    (presented built (.cmd 0x00000000)).input = [.cmd 0x00000000] := by decide

theorem test_hyps_StepRunsDecodedCommand :
    (presented built (.cmd 0x80000000)).input = [.cmd 0x80000000] ∧ decode 0x80000000#32 = .ok .drun := ⟨rfl, rfl⟩

theorem test_hyps_IdleKeepsStateAndResetInputResets :
    built.input = [] ∧ (presented built .rst).input = [.rst] := by decide

/-- `PACK` answers three items; two of them are transferred before the reset. -/
theorem test_hyps_ResetDuringCommandAbandonsIt :
    (presented (withBits built [true, true, true, true, true, true, true, true, true]) (.rstDuring 0xAC000000 2)).input =
      [.rstDuring 0xAC000000 2] ∧
    (ran .pack (withBits built [true, true, true, true, true, true, true, true, true])).out =
      [.answered [.byte 0x07, .byte 0xFF, .byte 0x80] .done] := by decide

/-- Both ways to reset, from the state of R122. -/
theorem test_hyps_ResetValues :
    (presented built .rst).input = [.rst] ∧ step (presented built .rst) = .next (stepped (presented built .rst)) ∧
    exec .srst built = .next (ran .srst built) :=
  ⟨rfl, rfl, exec_ran _ _⟩

theorem test_hyps_EveryCommandAnswersOneReply :
    (presented built (.cmd 0xFFFFFFFF)).input = [.cmd 0xFFFFFFFF] := rfl

/-- CMDSEQ at its greatest value, and `SRST`. -/
theorem test_hyps_CmdseqCountsEveryCommand :
    (presented { built with cmdseq := 0xFFFFFFFF } (.cmd 0x04000000)).input = [.cmd 0x04000000] ∧
    decode 0x04000000#32 ≠ .ok .srst ∧ decode 0x10000000#32 = .ok .srst :=
  ⟨rfl, nofun, rfl⟩

/-- A fault with a void item before it: bits 1 and 0 on a one-symbol tree. -/
theorem test_hyps_FaultsArePrecise :
    step (presented (withBits single [true, false]) (.cmd 0x80000000)) = .next (ran .drun (withBits single [true, false])) ∧
    (ran .drun (withBits single [true, false])).out = single.out ++ [.answered [.sym 0x61] (.err .malformedStream)] :=
  ⟨step_word _ _ _ rfl, by decide⟩

theorem test_hyps_SuccessKeepsFaultRecord :
    exec .nop { built with ecause := 7 } = .next (ran .nop { built with ecause := 7 }) ∧
    (ran .nop { built with ecause := 7 }).out = built.out ++ [.answered [] .done] ∧
    (∀ c, Terminal.done ≠ .err c) ∧ Instr.nop ≠ .srst ∧ Instr.nop ≠ .csrw 0x3 0 :=
  ⟨exec_ran _ _, by decide, nofun, by decide, by decide⟩

theorem test_hyps_CommandsRaiseOnlyTheirCauses :
    step (presented built (.cmd 0x60000063)) = .next (ran (.esym false 0x63) built) ∧
    (ran (.esym false 0x63) built).out = built.out ++ [.answered [] (.err .unknownSymbol)] :=
  ⟨step_word _ _ _ rfl, by decide⟩

/-- A faulting command, `PACK`, `DRUN` and a VALUE. -/
theorem test_hyps_ResponseSequenceOfEachCommand :
    (ran .uend built).out = built.out ++ [.answered [] (.err .malformedStream)] ∧
    (ran .pack built).out = built.out ++ [.answered [.byte 0] .done] ∧
    (ran .drun (withBits built [false])).out = built.out ++ [.answered [.sym 0x61] .done] ∧
    (ran (.frd false 0x61) built).out = built.out ++ [.answered [] (.value 2)] := by decide

theorem test_hyps_OnlyBuildWritesTheTree :
    exec .fclr built = .next (ran .fclr built) ∧ Instr.fclr ≠ .build ∧ Instr.fclr ≠ .srst ∧ Instr.fclr ≠ .derive :=
  ⟨exec_ran _ _, by decide, by decide, by decide⟩

/-- The three reads, each twice. -/
theorem test_hyps_ReadsRepeat :
    [Instr.csrr 0xD, .frd false 0x61, .bget 0].map (fun i => (ran i (ran i (withBits built [true]))).out) =
      [[.answered [] (.value 4), .answered [] (.value 4)], [.answered [] (.value 2), .answered [] (.value 2)],
        [.answered [] (.value 1), .answered [] (.value 1)]] ∧ (0xD#4 ≠ 0x5#4) := by decide

/-- For each opcode of a format with a "zero" field, a word with the field's top bit set. -/
theorem test_hyps_StrayBitsFault :
    ([(0x01#6, 0, 26), (0x02#6, 4, 22), (0x04#6, 0, 26), (0x08#6, 0, 26), (0x09#6, 22, 4), (0x0A#6, 22, 4), (0x10#6, 0, 26),
      (0x11#6, 0, 26), (0x18#6, 22, 4), (0x20#6, 0, 26), (0x21#6, 0, 26), (0x28#6, 0, 26), (0x29#6, 21, 5), (0x2B#6, 0, 26),
      (0x2C#6, 8, 18), (0x2D#6, 0, 26)] : List (BitVec 6 × Nat × Nat)).all (fun x =>
        opcode (x.1 ++ 0x2000000#26) == x.1 && (x.1 ++ 0x2000000#26 : Word).extractLsb' x.2.1 x.2.2 != 0#x.2.2) = true := by
  decide

theorem test_hyps_CsrrValuesAreExact :
    CoreInv built ∧ built.csrRead 0x1 = some 0x408 ∧ built.csrRead 0x7 = some 0x100000 ∧
    built.csrRead 0x8 = some 0 ∧ built.csrRead 0xA = some 3 ∧ built.csrRead 0xB = some 5 ∧ built.csrRead 0xC = some 4 ∧
    built.csrRead 0xD = some 4 :=
  ⟨test_hyps_CoreInv_built, by decide⟩

theorem test_hyps_CsrwWritesOrRefuses : (1#22 ≠ 0#22) ∧ built.cfg.symW ≤ 21 ∧ (255#22).toNat < 2 ^ built.cfg.symW ∧
    2 ^ built.cfg.symW ≤ (256#22).toNat ∧ (0xC#4 ≠ 0x3#4 ∧ 0xC#4 ≠ 0x6#4) := by decide

/-- A count below the greatest, a count at it (CNT_W = 2), and an operand that is no symbol. -/
theorem test_hyps_FsymCountsOneOccurrence :
    symid counted.cfg true 0 = some 256 ∧ counted.count 256 ≠ 2 ^ counted.cfg.cntW - 1 ∧
    symid single.cfg false 0x61 = some 0x61 ∧
    State.count { single with cfg := { Config.ref with cntW := 2 } } 0x61 = 2 ^ 2 - 1 ∧
    symid counted.cfg false 256 = none := by decide

theorem test_hyps_FrdReadsTheCount :
    symid counted.cfg false 255 = some 255 ∧ symid counted.cfg true 1 = none := by decide

theorem test_hyps_BuildOfEmptyTableFaults : ∀ id, id < 2 ^ State.reset.cfg.symW + 1 → State.reset.count id = 0 :=
  fun _ _ => rfl

theorem test_hyps_BuildCompletesOnAnyPresentSymbol :
    256 < 2 ^ counted.cfg.symW + 1 ∧ 1 ≤ counted.count 256 := by decide

theorem test_hyps_BuildOneSymbolTree : 0x61 < 2 ^ single.cfg.symW + 1 ∧ 1 ≤ single.count 0x61 ∧
    ∀ j, j < 2 ^ single.cfg.symW + 1 → j ≠ 0x61 → single.count j = 0 :=
  ⟨by decide, by decide, fun j _ hj => by simp [State.count, single, Store.get, Ne.symm hj]⟩

/-- `BUILD` in R122 completes; its internal nodes are 3 and 4. The hypotheses of the six statements about the tree it
makes and of the one about its weights. -/
theorem test_hyps_Build :
    exec .build counted = .next (ran .build counted) ∧
    (ran .build counted).out = counted.out ++ [.answered [] .done] ∧
    max (ran .build counted).nleaf 2 ≤ 3 ∧ 4 < (ran .build counted).nnode ∧
    counted.cfg.Ok ∧ (∀ e ∈ counted.ft, e.2 < 2 ^ counted.cfg.cntW) ∧
    ([true, true] : Bits) ≠ [] ∧ (ran .build counted).code 256 = [true, true] :=
  ⟨exec_ran _ _, by decide, by decide, by decide, by decide, by decide, by decide, by decide⟩

theorem test_hyps_WeightsNeverOverflow : ∀ id, single.count id < 2 ^ single.cfg.cntW := by
  intro id
  simp only [State.count, single, Store.get]
  split <;> decide

/-- Two states with one table and different bit buffers. -/
theorem test_hyps_BuildDependsOnTheTableAlone :
    counted.cfg = (withBits counted [true]).cfg ∧ (∀ id, counted.count id = (withBits counted [true]).count id) ∧
    (ran .build counted).out = counted.out ++ [.answered [] .done] ∧
    exec .build (withBits counted [true]) = .next (ran .build (withBits counted [true])) :=
  ⟨rfl, fun _ => rfl, by decide, exec_ran _ _⟩

theorem test_hyps_CodeTableIsFreeOfCommonStarts :
    CoreInv built ∧ built.code 0x61 ≠ [] ∧ built.code 256 ≠ [] ∧ 0x61 ≠ 256 :=
  ⟨test_hyps_CoreInv_built, by decide⟩

theorem test_hyps_DeriveRederivesTheSameCodes : counted.tree = false ∧ built.tree = true ∧ CoreInv built :=
  ⟨rfl, rfl, test_hyps_CoreInv_built⟩

/-- No symbol; no code table; no code; one bit too many for BB; exactly full. -/
theorem test_hyps_EsymAppendsTheCode :
    symid built.cfg true 1 = none ∧ symid narrow.cfg true 0 = some 256 ∧ counted.codes = false ∧ narrow.codes = true ∧
    built.code 0x63 = [] ∧ narrow.code 256 ≠ [] ∧
    narrow.cfg.bbCap < (withBits narrow [true, true]).bb.length + (narrow.code 256).length ∧
    (withBits narrow [true]).bb.length + (narrow.code 256).length ≤ narrow.cfg.bbCap := by decide

/-- No code table; an empty BB; a bit to an internal node, to a phantom leaf, to a real leaf. -/
theorem test_hyps_DrunOnOneBit :
    counted.codes = false ∧ built.codes = true ∧ built.bb = [] ∧ (withBits built [true]).bb = [true] ∧
    (built.node (built.node built.dptr).r).k = true ∧
    ((single.node (single.node single.dptr).l).k = false ∧ (single.node (single.node single.dptr).l).ph = true) ∧
    ((built.node (built.node built.dptr).l).k = false ∧ (built.node (built.node built.dptr).l).ph = false) := by decide

/-- The first piece faults; both pieces complete, the first mid-path; the second piece faults. -/
theorem test_hyps_DrunInPieces :
    (ran .drun (withBits single [false])).out = single.out ++ [.answered [] (.err .malformedStream)] ∧
    (ran .drun (withBits built [false, true])).out = built.out ++ [.answered [.sym 0x61] .done] ∧
    (ran .drun { withBits built [true] with dptr := (ran .drun (withBits built [false, true])).dptr }).out =
      built.out ++ [.answered [.sym 0x20000A] .done] ∧
    (ran .drun (withBits single [true])).out = single.out ++ [.answered [.sym 0x61] .done] ∧
    (ran .drun { withBits single [false] with dptr := (ran .drun (withBits single [true])).dptr }).out =
      single.out ++ [.answered [] (.err .malformedStream)] ∧ built.codes = true ∧ single.codes = true := by decide

/-- Three leaves with any bits, and one leaf with ones. -/
theorem test_hyps_DrunCompletesOnBuiltTrees :
    CoreInv built ∧ built.tree = true ∧ 2 ≤ built.nleaf ∧ CoreInv single ∧ single.tree = true ∧ single.nleaf = 1 :=
  ⟨test_hyps_CoreInv_built, rfl, by decide, test_hyps_CoreInv_single, rfl, rfl⟩

theorem test_hyps_DendChecksTheWalkPointer :
    counted.codes = false ∧ built.codes = true ∧ State.dptr { built with dptr := 3 } ≠ built.root ∧ built.dptr = built.root := by
  decide

/-- n = 17; bit n set; one bit too many for BB; exactly full with n = 16, and with n = 0. -/
theorem test_hyps_BputAppendsTheLiteral :
    16 < (17#5).toNat ∧ 2 ^ (3#5).toNat ≤ (8#16).toNat ∧
    ((3#5).toNat ≤ 16 ∧ (7#16).toNat < 2 ^ (3#5).toNat ∧ narrow.cfg.bbCap < (withBits narrow [true]).bb.length + (3#5).toNat) ∧
    ((16#5).toNat ≤ 16 ∧ (0xFFFF#16).toNat < 2 ^ (16#5).toNat ∧ built.bb.length + (16#5).toNat ≤ built.cfg.bbCap) ∧
    ((0#5).toNat ≤ 16 ∧ (0#16).toNat < 2 ^ (0#5).toNat ∧ narrow.bb.length + (0#5).toNat ≤ narrow.cfg.bbCap) := by decide

theorem test_hyps_BgetReadsTheBit :
    (withBits built [true]).bb.length ≤ (1#26).toNat ∧ (0#26).toNat < (withBits built [true]).bb.length := by decide

/-- Header bytes 8 and 7; a data byte one bit too long, and one that fits exactly. -/
theorem test_hyps_UbyteTakesHeaderThenData :
    built.ust = .hdr ∧ 7 < (8#8).toNat ∧ (7#8).toNat ≤ 7 ∧ State.ust { built with ust := .data } = .data ∧
    Config.bbCap { Config.ref with bbCap := 8 } < (withBits built [true]).bb.length + 8 ∧
    built.bb.length + 8 ≤ Config.bbCap { Config.ref with bbCap := 8 } := by decide

/-- State HDR; state DATA with padding and no data byte; with no padding; with a data byte. -/
theorem test_hyps_UendStripsThePadding :
    built.ust = .hdr ∧
    (let s := { built with ust := .data, pad := 1 }; s.ust = .data ∧ s.pad ≠ 0#3 ∧ s.udat = false) ∧
    (let s := { built with ust := .data }; s.ust = .data ∧ s.pad = 0#3) ∧
    (let s := { built with ust := .data, pad := 7, udat := true }; s.ust = .data ∧ s.udat = true) := by decide

theorem test_hyps_BytesAreMostSignificantBitFirst : (List.replicate 16 true).length % 8 = 0 := by decide

/-- Nine bits where BBCAP is exactly their padded length. -/
theorem test_hyps_UnpackOfPackRecoversBits :
    (withBits { built with cfg := { Config.ref with bbCap := 16 } } (List.replicate 9 true)).ust = .hdr ∧
    8 * (((withBits built (List.replicate 9 true)).bb.length + 7) / 8) ≤ 16 := by decide

/-- 'a', 'b' and the sentinel in the tree of R122. -/
theorem test_hyps_DecodeOfEncodeRecoversSymbols :
    CoreInv built ∧ built.tree = true ∧ built.dptr = built.root ∧ built.bb = [] ∧
    [(false, 0x61#21), (false, 0x62#21), (true, 0#21)].map (fun x => symid built.cfg x.1 x.2) = [0x61, 0x62, 256].map some ∧
    (∀ id ∈ [0x61, 0x62, 256], built.code id ≠ []) ∧
    ([0x61, 0x62, 256].map fun id => (built.code id).length).sum ≤ built.cfg.bbCap :=
  ⟨test_hyps_CoreInv_built, by decide⟩

theorem test_hyps_CoreInvAtReset : Config.Ok { symW := 1, cntW := 32, bbCap := 1 } ∧
    Config.Ok { symW := 21, cntW := 1, bbCap := 67108864 } := by decide

theorem test_hyps_StepKeepsCoreInv : CoreInv (presented built (.cmd 0xA0000000)) ∧
    step (presented built (.cmd 0xA0000000)) = .next (ran .bclr { built with input := [] }) :=
  ⟨test_hyps_CoreInv_built.withInput _, step_word _ _ _ rfl⟩

theorem test_hyps_InvariantGivesTheTreeShape : CoreInv single ∧ single.tree = true := ⟨test_hyps_CoreInv_single, rfl⟩

end Sys2Proof.Tests
end

/-! PROOFS. What every step does (R90, R199, R200, R201): it answers a next state, takes one event and keeps the parameters. -/

namespace Sys2Proof.Machine

/-- Whether or not the word selects a command, it ends in a next state of the same core. -/
theorem runWord_next (w : Word) (s : State) :
    ∃ t, runWord w s = .next t ∧ t.cfg = s.cfg ∧ t.input = s.input := by
  unfold runWord
  cases decode w with
  | error r => exact ⟨_, rfl, rfl, rfl⟩
  | ok i =>
    obtain ⟨t, ht, hcfg, hinput, -⟩ := exec_next i s
    exact ⟨t, ht, hcfg, hinput⟩

theorem step_nil {s : State} (h : s.input = []) : step s = .next s := by
  unfold step; rw [h]

theorem step_cmd {s : State} {w : Word} {rest : List HostEvent} (h : s.input = .cmd w :: rest) :
    step s = runWord w { s with input := rest } := by
  unfold step; rw [h]

theorem step_rst {s : State} {rest : List HostEvent} (h : s.input = .rst :: rest) :
    step s = resetInput { s with input := rest } := by
  unfold step; rw [h]

theorem step_rstDuring {s : State} {w : Word} {k : Nat} {rest : List HostEvent} (h : s.input = .rstDuring w k :: rest) :
    step s = resetDuring k (runWord w { s with input := rest }) { s with input := rest } := by
  unfold step; rw [h]

/-- Settles O8, by the kind of event the host presents. -/
theorem stepAlwaysAnswersNext : Obligations.StepAlwaysAnswersNext := by
  intro s
  cases h : s.input with
  | nil => exact ⟨s, step_nil h, rfl, h⟩
  | cons e rest =>
    cases e with
    | cmd w =>
      rw [step_cmd h]
      exact runWord_next w _
    | rst => exact ⟨_, step_rst h, rfl, rfl⟩
    | rstDuring w k =>
      obtain ⟨t, ht, -, -⟩ := runWord_next w { s with input := rest }
      rw [step_rstDuring h, ht]
      exact ⟨_, rfl, rfl, rfl⟩

end Sys2Proof.Machine

/-! PROOFS. The state right after reset (R48, R49). -/

namespace Sys2Proof.Machine

/-- The register map's form of CFG (R37), the width of a count first. -/
theorem cfgWord_eq (c : Config) : cfgWord c = BitVec.ofNat 32 (32 * c.cntW + c.symW) := by
  rw [cfgWord, Nat.mul_comm]

/-- The reset value of EOLCHAR fits in the 21 bits that hold it. -/
theorem eolchar_resetOf (c : Config) : (State.resetOf c).eolchar.toNat = 0x0A % 2 ^ c.symW :=
  BitVec.toNat_ofNat _ _ |>.trans (Nat.mod_eq_of_lt ((Nat.mod_le _ _).trans_lt (by decide)))

theorem resetOf_hasResetValues (c : Config) : HasResetValues (State.resetOf c) where
  ft _ := rfl
  nm _ := rfl
  tree := ⟨rfl, rfl, rfl, rfl, rfl⟩
  ct _ := rfl
  bb := rfl
  unpack := ⟨rfl, rfl, rfl⟩
  dptr := rfl
  fault := ⟨rfl, rfl⟩
  eolchar _ := eolchar_resetOf c
  cmdseq := rfl
  consts := ⟨rfl, congrArg some (cfgWord_eq c), rfl⟩

/-- Settles O12, field by field of the reset table. -/
theorem resetStateHasTheResetValues : Obligations.ResetStateHasTheResetValues :=
  ⟨fun c => ⟨resetOf_hasResetValues c, rfl, rfl, rfl⟩, rfl⟩

/-- Settles O57: the stores are empty, and TREE = 0 leaves no built tree to show. -/
theorem coreInvAtReset : Obligations.CoreInvAtReset := fun c hc =>
  { cfgOk := hc
    ftOk := ⟨Store.wf_nil _ _, by simp [State.resetOf]⟩
    ctOk := Store.wf_nil _ _
    bbOk := Nat.zero_le _
    eolOk := by
      rw [eolchar_resetOf]
      exact Nat.mod_lt _ (Nat.two_pow_pos _)
    causeOk := by simp [State.resetOf]
    udatOk := by simp [State.resetOf]
    flagsOk := rfl
    noTree := fun _ => ⟨rfl, rfl, rfl, rfl, rfl, rfl⟩
    built := by simp [State.resetOf]
    derived := by simp [State.resetOf]
    dptrOk := by simp [State.resetOf] }

end Sys2Proof.Machine

/-! PROOFS. What `BUILD` leaves behind (R111, R118, R120) as a function of the counts (R17). -/

namespace Sys2Proof.Machine

/-- `BUILD` with a symbol present (R111). -/
theorem exec_build_of_present {s : State} (h : present s.cfg s.ft ≠ []) :
    exec .build s = complete (s.withTree (construct s.ft (present s.cfg s.ft))) [] .done :=
  if_neg h

/-- `BUILD` with no symbol present (R181). -/
theorem exec_build_of_none_present {s : State} (h : present s.cfg s.ft = []) :
    exec .build s = raise s .emptyInput (encode .build) :=
  if_pos h

/-- A `BUILD` that answered DONE found a symbol present and left the tree and code table of its table. -/
theorem exec_build_done {s t : State} (h : exec .build s = .next t) (hout : t.out = s.out ++ [.answered [] .done]) :
    present s.cfg s.ft ≠ [] ∧
      t = (s.withTree (construct s.ft (present s.cfg s.ft))).answer [] .done := by
  by_cases hp : present s.cfg s.ft = []
  · rw [exec_build_of_none_present hp] at h
    cases h
    simp at hout
  · rw [exec_build_of_present hp] at h
    cases h
    exact ⟨hp, rfl⟩

/-- No code is longer than the number of internal nodes of the tree, one less than the number of its leaves (R120). -/
theorem BuiltTree.derive_length {lv nm : List Node} {root : Nat} (h : BuiltTree lv nm root) (id : Nat) :
    (Store.get [] (derive nm root) id).length ≤ lv.length - 1 := by
  rcases h.derive_cases id with ⟨j, hpath, -, -⟩ | ⟨-, hnone⟩
  · have hlen := h.path_length hpath
    have := h.two
    have := h.length
    have := h.last
    omega
  · simp [hnone]

/-- A tree of NSYM symbols at most has at most MAXLEN + 1 leaves, the phantom leaf included (R9, R113). -/
theorem leaves_present_length_le {c : Config} {ft : Store Nat} (h : present c ft ≠ []) :
    (leaves ft (present c ft)).length ≤ 2 ^ c.symW + 1 := by
  have hle : (present c ft).length ≤ 2 ^ c.symW + 1 := present_length c ft
  have hpos : 0 < 2 ^ c.symW := Nat.two_pow_pos _
  rw [leaves_length ft h]
  omega

/-- Settles O39: the symbols with a code are those of the leaves, and a path visits no internal node twice. -/
theorem presentSymbolsGetCodes : Obligations.PresentSymbolsGetCodes := by
  intro s t h hout id
  obtain ⟨hp, rfl⟩ := exec_build_done h hout
  have hb := construct_built s.ft hp
  constructor
  · exact (derive_ne_nil_iff hb id).trans mem_present
  · exact (hb.derive_length id).trans (Nat.sub_le_of_le_add (leaves_present_length_le hp))

/-- Symbols that do not pass the filter add nothing to a sum in which they weigh 0. -/
theorem sum_map_filter_of_eq_zero {f : Nat → Nat} {p : Nat → Bool} (h : ∀ x, p x = false → f x = 0) (l : List Nat) :
    ((l.filter p).map f).sum = (l.map f).sum := by
  induction l with
  | nil => rfl
  | cons x l ih =>
    cases hx : p x with
    | true => simp [hx, ih]
    | false => simp [hx, ih, h x hx]

/-- The counts of the present symbols add up to all counts (R118). -/
theorem sum_present (c : Config) (ft : Store Nat) :
    ((present c ft).map (Store.get 0 ft)).sum = ((List.range c.nsym).map (Store.get 0 ft)).sum :=
  sum_map_filter_of_eq_zero (fun id h => by simpa using h) _

/-- The root of a built tree weighs the sum of all counts (R118). -/
theorem construct_root_weight {c : Config} {ft : Store Nat} (h : present c ft ≠ []) :
    (nodeAt (construct ft (present c ft)).nm (construct ft (present c ft)).root).w =
      ((List.range c.nsym).map (Store.get 0 ft)).sum := by
  rw [(construct_built ft h).weight, leaves_weight, sum_present]

/-- NSYM counts of CNT_W bits add up to fewer than WT_W bits (R9, R92). -/
theorem sum_counts_lt {c : Config} {f : Nat → Nat} (h : ∀ id, f id < 2 ^ c.cntW) :
    ((List.range c.nsym).map f).sum < 2 ^ c.wtW := by
  have hsum : ((List.range c.nsym).map f).sum ≤ c.nsym * (2 ^ c.cntW - 1) := by
    simpa using List.sum_le_card_nsmul ((List.range c.nsym).map f) (2 ^ c.cntW - 1) (by
      intro x hx
      obtain ⟨id, -, rfl⟩ := List.mem_map.1 hx
      exact Nat.le_sub_one_of_lt (h id))
  have hpos : 0 < 2 ^ c.symW := Nat.two_pow_pos _
  have hnsym : c.nsym ≤ 2 ^ (c.symW + 1) := by
    rw [Config.nsym, Nat.pow_succ]; omega
  calc ((List.range c.nsym).map f).sum
      ≤ c.nsym * (2 ^ c.cntW - 1) := hsum
    _ ≤ 2 ^ (c.symW + 1) * (2 ^ c.cntW - 1) := Nat.mul_le_mul_right _ hnsym
    _ < 2 ^ (c.symW + 1) * 2 ^ c.cntW :=
      Nat.mul_lt_mul_of_pos_left (Nat.sub_one_lt (Nat.two_pow_pos _).ne') (Nat.two_pow_pos _)
    _ = 2 ^ c.wtW := by rw [← Nat.pow_add, Config.wtW]; congr 1; omega

/-- Settles O40: the root gathers every leaf's weight, and children weigh no more than their parent. -/
theorem weightsNeverOverflow : Obligations.WeightsNeverOverflow := by
  intro s t _ hcount h hout
  obtain ⟨hp, rfl⟩ := exec_build_done h hout
  have hroot := construct_root_weight hp
  refine ⟨hroot, (construct_built s.ft hp).weight_le, ?_⟩
  exact hroot.trans_lt (sum_counts_lt hcount)

/-! R17: the tree is read off the counts, so the form in which FT is stored cannot matter. -/

theorem present_congr {ft ft' : Store Nat} (h : Store.get 0 ft = Store.get 0 ft') (c : Config) :
    present c ft = present c ft' := by
  unfold present; rw [h]

theorem realLeaf_congr {ft ft' : Store Nat} (h : Store.get 0 ft = Store.get 0 ft') : realLeaf ft = realLeaf ft' := by
  unfold realLeaf; rw [h]

theorem construct_congr {ft ft' : Store Nat} (h : Store.get 0 ft = Store.get 0 ft') (ids : List Nat) :
    construct ft ids = construct ft' ids := by
  unfold construct leaves; rw [realLeaf_congr h]

/-- Settles O41: equal counts have equal present symbols and equal leaves, from which everything else is made. -/
theorem buildDependsOnTheTableAlone : Obligations.BuildDependsOnTheTableAlone := by
  intro s s' t t' hcfg hcount h hout h'
  have hget : Store.get 0 s.ft = Store.get 0 s'.ft := funext hcount
  obtain ⟨hp, rfl⟩ := exec_build_done h hout
  have hpresent : present s'.cfg s'.ft = present s.cfg s.ft := by rw [← hcfg, present_congr hget]
  rw [exec_build_of_present (hpresent ▸ hp), hpresent, ← construct_congr hget] at h'
  cases h'
  exact ⟨rfl, rfl, rfl, rfl, rfl, rfl, rfl, rfl, rfl⟩

end Sys2Proof.Machine

/-! PROOFS. Every step keeps the invariant of reachable states (R49): what each update of the state asks of the invariant,
then each command by its updates, then the step. -/

namespace Sys2Proof.Machine

/-! The updates that commands make, each with the part of the invariant that it has to meet. -/

theorem CoreInv.withFt {s : State} (h : CoreInv s) {ft : Store Nat} (hft : FtOk s.cfg ft) : CoreInv { s with ft := ft } :=
  { h with ftOk := hft }

theorem CoreInv.withBb {s : State} (h : CoreInv s) {bb : Bits} (hbb : bb.length ≤ s.cfg.bbCap) :
    CoreInv { s with bb := bb } :=
  { h with bbOk := hbb }

theorem CoreInv.withEolchar {s : State} (h : CoreInv s) {e : BitVec 21} (he : e.toNat < 2 ^ s.cfg.symW) :
    CoreInv { s with eolchar := e } :=
  { h with eolOk := he }

theorem CoreInv.withFaultCleared {s : State} (h : CoreInv s) : CoreInv { s with ecause := 0, einfo := 0 } :=
  { h with causeOk := by simp }

theorem CoreInv.withUnpacker {s : State} (h : CoreInv s) (ust : Ust) (udat : Bool) (pad : BitVec 3)
    (hu : udat = true → ust = .data) : CoreInv { s with ust := ust, udat := udat, pad := pad } :=
  { h with udatOk := hu }

/-- While TREE = 1 the walk pointer may stand on any internal node; none is at NNODE or above (R49 item 7). -/
theorem CoreInv.withDptr {s : State} (h : CoreInv s) {p : Nat} (h0 : s.tree = false → p = 0)
    (h1 : s.tree = true → (s.node p).k = true) : CoreInv { s with dptr := p } :=
  { h with
    noTree := fun ht => by
      obtain ⟨hnm, hnleaf, hnnode, hroot, hct, -⟩ := h.noTree ht
      exact ⟨hnm, hnleaf, hnnode, hroot, hct, h0 ht⟩
    dptrOk := fun ht => by
      obtain ⟨-, -, -, -, hnnode, -⟩ := h.tree_built ht
      exact ⟨hnnode ▸ lt_length_of_k (h1 ht), h1 ht⟩ }

/-- The root of the tree that NM holds is internal (R49 item 2). -/
theorem CoreInv.root_internal {s : State} (h : CoreInv s) (ht : s.tree = true) : (s.node s.root).k = true := by
  obtain ⟨_, -, -, -, -, hb⟩ := h.tree_built ht
  exact hb.root_internal

/-- Installing the tree of the counts keeps the invariant (R111). -/
theorem CoreInv.withBuiltTree {s : State} (h : CoreInv s) (hp : present s.cfg s.ft ≠ []) :
    CoreInv (s.withTree (construct s.ft (present s.cfg s.ft))) :=
  have hb := construct_built s.ft hp
  { h with
    ctOk := derive_wf hb
    flagsOk := rfl
    noTree := by simp
    built := fun _ => ⟨s.ft, h.ftOk, hp, rfl⟩
    derived := fun _ => rfl
    dptrOk := fun _ => ⟨hb.root_lt, hb.root_internal⟩ }

/-- Where TREE = 1, `DERIVE` writes what CT and CODES already hold (R49 item 1, R121). -/
theorem CoreInv.rederived {s : State} (h : CoreInv s) (ht : s.tree = true) :
    { s with ct := derive s.nm s.root, codes := true } = s := by
  rw [← h.derived ht, ← h.flagsOk.symm.trans ht]

/-- Every state element at its reset value meets the invariant. -/
theorem CoreInv.cleared {s : State} (h : CoreInv s) : CoreInv s.cleared :=
  ((coreInvAtReset s.cfg h.cfgOk).withInput s.input).withOut s.out

/-! The frequency table (R24, R101). -/

/-- A symbol operand names an entry of the stores (R9, R73). -/
theorem symid_lt {c : Config} {S : Bool} {char : BitVec 21} {id : Nat} (h : symid c S char = some id) : id < c.nsym := by
  cases S with
  | true =>
    obtain ⟨-, rfl⟩ : char = 0#21 ∧ c.sent = id := by simpa [symid] using h
    exact Nat.lt_succ_self _
  | false =>
    obtain ⟨hlt, rfl⟩ : char.toNat < 2 ^ c.symW ∧ char.toNat = id := by simpa [symid] using h
    exact Nat.lt_succ_of_lt hlt

theorem FtOk.count_le {c : Config} {ft : Store Nat} (h : FtOk c ft) (id : Nat) : Store.get 0 ft id ≤ c.cntMax := by
  by_cases h0 : Store.get 0 ft id = 0
  · omega
  · exact h.2 _ (Store.mem_of_get_ne h0)

theorem FtOk.set {c : Config} {ft : Store Nat} (h : FtOk c ft) {id v : Nat} (hid : id < c.nsym) (hv : v ≤ c.cntMax) :
    FtOk c (Store.set 0 ft id v) := by
  refine ⟨Store.wf_set h.1 hid v, fun e he => ?_⟩
  rcases Store.mem_set he with ⟨rfl, -⟩ | he
  · exact hv
  · exact h.2 e he

/-! The decode walk (R141). -/

/-- A walk that starts on an internal node and ends, ends on an internal node (R31). -/
theorem State.walk_internal {s : State} (hroot : (s.node s.root).k = true) {bits : Bits} {p q : Nat}
    (hp : (s.node p).k = true) (h : (s.walk bits p).2 = some q) : (s.node q).k = true := by
  induction bits generalizing p with
  | nil => cases h; exact hp
  | cons b bits ih =>
    rw [State.walk_cons] at h
    split at h
    · exact ih ‹_› h
    · split at h
      · cases h
      · exact ih hroot h

/-! The outcomes of a command. -/

/-- The state an outcome leaves meets the invariant. -/
def MeetsInv (o : Result) : Prop := ∀ t, o = .next t → CoreInv t

theorem CoreInv.complete {s : State} (h : CoreInv s) (items : List Item) (t : Terminal) : MeetsInv (complete s items t) := by
  rintro _ ⟨⟩
  exact h.answer items t

theorem CoreInv.raiseAfter {s : State} (h : CoreInv s) (items : List Item) {c : Cause} (w : Word)
    (hc : c ≠ .ioError := by simp) : MeetsInv (raiseAfter s items c w) :=
  (h.recordFault hc w).complete items (.err c)

theorem CoreInv.raise {s : State} (h : CoreInv s) {c : Cause} (w : Word) (hc : c ≠ .ioError := by simp) :
    MeetsInv (raise s c w) :=
  h.raiseAfter [] w hc

section
variable {s : State} (h : CoreInv s)
include h

theorem execCsrr_meetsInv (addr : BitVec 4) : MeetsInv (execCsrr addr s) := by
  unfold execCsrr
  split
  · exact h.raise _
  · exact h.complete _ _

theorem execCsrw_meetsInv (addr : BitVec 4) (value : BitVec 22) : MeetsInv (execCsrw addr value s) := by
  unfold execCsrw
  split
  · split
    · exact h.withFaultCleared.complete _ _
    · exact h.raise _
  · split
    · split
      · refine (h.withEolchar (e := value.setWidth 21) ?_).complete _ _
        rw [BitVec.toNat_setWidth]
        exact (Nat.mod_le _ _).trans_lt ‹_›
      · exact h.raise _
    · exact h.raise _

theorem execSrst_meetsInv : MeetsInv (execSrst s) := by
  rintro _ ⟨⟩
  exact h.cleared.withOut _

theorem execFclr_meetsInv : MeetsInv (execFclr s) :=
  (h.withFt ⟨Store.wf_nil _ _, by simp⟩).complete _ _

theorem execFsym_meetsInv (S : Bool) (char : BitVec 21) : MeetsInv (execFsym S char s) := by
  unfold execFsym
  split
  · exact h.raise _
  · split
    · exact h.raise _
    · have hle := FtOk.count_le h.ftOk ‹_›
      exact (h.withFt (FtOk.set h.ftOk (symid_lt ‹_›) (Nat.lt_of_le_of_ne hle ‹_›))).complete _ _

theorem execFrd_meetsInv (S : Bool) (char : BitVec 21) : MeetsInv (execFrd S char s) := by
  unfold execFrd
  split
  · exact h.raise _
  · exact h.complete _ _

theorem execBuild_meetsInv : MeetsInv (execBuild s) := by
  unfold execBuild
  split
  · exact h.raise _
  · exact (h.withBuiltTree ‹_›).complete _ _

theorem execDerive_meetsInv : MeetsInv (execDerive s) := by
  unfold execDerive
  split
  · rw [h.rederived ‹_›]
    exact h.complete _ _
  · exact h.raise _

theorem execEsym_meetsInv (S : Bool) (char : BitVec 21) : MeetsInv (execEsym S char s) := by
  unfold execEsym
  split
  · exact h.raise _
  · split
    · exact h.raise _
    · split
      · exact h.raise _
      · split
        · exact h.raise _
        · exact (h.append ‹_›).complete _ _

theorem execDrun_meetsInv : MeetsInv (execDrun s) := by
  unfold execDrun
  split
  · exact h.raise _
  · have ht : s.tree = true := by rw [h.flagsOk]; simpa using ‹¬ s.codes = false›
    split
    · exact h.raiseAfter _ _
    · rename_i p hwalk
      have hp : (s.node p).k = true :=
        State.walk_internal (h.root_internal ht) (h.dptrOk ht).2 (congrArg Prod.snd hwalk)
      have h0 : s.tree = false → p = 0 := by simp [ht]
      exact ((h.withDptr h0 fun _ => hp).withBb (Nat.zero_le _)).complete _ _

theorem execDend_meetsInv : MeetsInv (execDend s) := by
  unfold execDend
  split
  · exact h.raise _
  · split
    · exact h.raise _
    · exact h.complete _ _

theorem execBclr_meetsInv : MeetsInv (execBclr s) := by
  have h0 : s.tree = false → (if s.tree then s.root else 0) = 0 := fun ht => by simp [ht]
  have h1 : s.tree = true → (s.node (if s.tree then s.root else 0)).k = true := fun ht => by
    simpa [ht] using h.root_internal ht
  exact (((h.withDptr h0 h1).withUnpacker .hdr false 0 nofun).withBb (Nat.zero_le _)).complete _ _

theorem execBput_meetsInv (n : BitVec 5) (bits : BitVec 16) : MeetsInv (execBput n bits s) := by
  unfold execBput
  split
  · exact h.raise _
  · split
    · exact h.raise _
    · exact (h.append ‹_›).complete _ _

theorem execBget_meetsInv (idx : BitVec 26) : MeetsInv (execBget idx s) := by
  unfold execBget
  split
  · exact h.raise _
  · exact h.complete _ _

theorem execPack_meetsInv : MeetsInv (execPack s) :=
  (h.withBb (Nat.zero_le _)).complete _ _

theorem execUbyte_meetsInv (byte : Byte) : MeetsInv (execUbyte byte s) := by
  unfold execUbyte
  split
  · split
    · exact h.raise _
    · exact ((h.withUnpacker .data false _ nofun).withBb (Nat.zero_le _)).complete _ _
  · rename_i hust
    rcases s.append_cases (byteBits byte) with ⟨-, ha⟩ | ⟨hle, ha⟩ <;> rw [ha]
    · exact h.raise _
    · refine ((h.withUnpacker s.ust true s.pad fun _ => hust).withBb ?_).complete _ _
      rwa [List.length_append]

theorem execUend_meetsInv : MeetsInv (execUend s) := by
  unfold execUend
  split
  · exact h.raise _
  · split
    · exact h.raise _
    · refine ((h.withUnpacker .hdr false s.pad nofun).withBb ?_).complete _ _
      exact (List.length_take_le' _ _).trans h.bbOk

/-- Every command keeps the invariant. -/
theorem exec_meetsInv (i : Instr) : MeetsInv (exec i s) :=
  match i with
  | .nop => h.complete _ _
  | .csrr addr => execCsrr_meetsInv h addr
  | .csrw addr value => execCsrw_meetsInv h addr value
  | .srst => execSrst_meetsInv h
  | .fclr => execFclr_meetsInv h
  | .fsym S char => execFsym_meetsInv h S char
  | .frd S char => execFrd_meetsInv h S char
  | .build => execBuild_meetsInv h
  | .derive => execDerive_meetsInv h
  | .esym S char => execEsym_meetsInv h S char
  | .drun => execDrun_meetsInv h
  | .dend => execDend_meetsInv h
  | .bclr => execBclr_meetsInv h
  | .bput n bits => execBput_meetsInv h n bits
  | .bget idx => execBget_meetsInv h idx
  | .pack => execPack_meetsInv h
  | .ubyte byte => execUbyte_meetsInv h byte
  | .uend => execUend_meetsInv h

theorem runWord_meetsInv (w : Word) : MeetsInv (runWord w s) := by
  unfold runWord
  split
  · exact h.raise w
  · exact exec_meetsInv h _

/-- Of the abandoned command's outcome nothing but items gets into the state (R201). -/
theorem resetDuring_meetsInv (k : Nat) (o : Result) : MeetsInv (resetDuring k o s) := by
  intro t ht
  cases o with
  | next u => cases ht; exact h.cleared.withOut _
  | fault f => cases ht
  | refused r => cases ht

end

/-- Settles O58, by the kind of event the host presents. -/
theorem stepKeepsCoreInv : Obligations.StepKeepsCoreInv := by
  intro s t h ht
  cases hi : s.input with
  | nil =>
    rw [step_nil hi] at ht
    cases ht
    exact h
  | cons e rest =>
    have h' := h.withInput rest
    cases e with
    | cmd w => exact runWord_meetsInv h' w t (step_cmd hi ▸ ht)
    | rst =>
      rw [step_rst hi] at ht
      cases ht
      exact h'.cleared
    | rstDuring w k => exact resetDuring_meetsInv h' k _ t (step_rstDuring hi ▸ ht)

end Sys2Proof.Machine

/-! PROOFS. What the invariant says of the tree, the code table and the control registers (R37 to R45, R49, R120). -/

namespace Sys2Proof.Machine

/-- Settles O38: without a tree there are no codes, and with one no path to a leaf goes on to another. -/
theorem codeTableIsFreeOfCommonStarts : Obligations.CodeTableIsFreeOfCommonStarts := by
  intro s h a b ha hb hne
  cases ht : s.tree with
  | false =>
    obtain ⟨-, -, -, -, hct, -⟩ := h.noTree ht
    exact absurd (by rw [State.code, hct]; rfl) ha
  | true =>
    obtain ⟨_, -, -, -, -, hbuilt⟩ := h.tree_built ht
    unfold State.code at *
    rw [h.derived ht] at *
    exact hbuilt.derive_noCommonStart ha hb hne

/-! The shape of the tree (R49 items 2 to 6). -/

/-- An internal node's children are different nodes before it, whose weights it sums (R49 items 4 and 5). -/
theorem BuiltTree.internal_spec {lv nm : List Node} {root : Nat} (h : BuiltTree lv nm root) {i : Nat}
    (hk : (nodeAt nm i).k = true) :
    (nodeAt nm i).l < i ∧ (nodeAt nm i).r < i ∧ (nodeAt nm i).l ≠ (nodeAt nm i).r ∧
      (nodeAt nm i).w = (nodeAt nm (nodeAt nm i).l).w + (nodeAt nm (nodeAt nm i).r).w := by
  obtain ⟨hle, hlt⟩ := h.internal_iff.1 hk
  have hm := h.merged i hle hlt
  exact ⟨h.left_lt hk, h.right_lt hk, hm.ne.symm, congrArg Node.w hm.node⟩

/-- NLEAF, NNODE and ROOT of a built tree in terms of each other, and their bounds (R26, R49 item 2). -/
theorem CoreInv.tree_sizes {s : State} (h : CoreInv s) (ht : s.tree = true) :
    1 ≤ s.nleaf ∧ s.nleaf ≤ s.cfg.nsym ∧ s.nnode = 2 * max s.nleaf 2 - 1 ∧ s.root = s.nnode - 1 := by
  obtain ⟨ft, -, hne, hnleaf, hnnode, hb⟩ := h.tree_built ht
  refine ⟨?_, ?_, ?_, ?_⟩
  · rw [hnleaf]
    exact List.length_pos_iff.2 hne
  · rw [hnleaf]
    exact present_length s.cfg ft
  · rw [hnnode, hb.length, leaves_length ft hne, hnleaf]
  · rw [hnnode]
    exact hb.last

/-- There are at least three symbols: two characters and the sentinel (R8, R9). -/
theorem Config.two_lt_nsym {c : Config} (h : c.Ok) : 2 < c.nsym := by
  obtain ⟨hsym, -⟩ := h
  have := Nat.pow_le_pow_right (show 0 < 2 by decide) hsym
  unfold Config.nsym
  omega

/-- Who has a code (R49 item 8). -/
theorem CoreInv.code_ne_nil_iff {s : State} (h : CoreInv s) (ht : s.tree = true) (id : Nat) :
    s.code id ≠ [] ↔ ∃ i, i < s.nleaf ∧ IsLeafOf s.nm i id := by
  obtain ⟨ft, -, hne, hnleaf, hnnode, hb⟩ := h.tree_built ht
  obtain ⟨hpos, -, hnodes, -⟩ := h.tree_sizes ht
  have hleaf : ∀ i, i < s.nleaf → (IsLeafOf s.nm i id ↔ ∃ h : i < (present s.cfg ft).length, (present s.cfg ft)[i] = id) :=
    fun i hi => isLeafOf_iff hb (by omega)
  rw [State.code, h.derived ht, derive_ne_nil_iff hb, List.mem_iff_getElem]
  constructor
  · rintro ⟨i, hi, rfl⟩
    exact ⟨i, hnleaf ▸ hi, (hleaf i (hnleaf ▸ hi)).2 ⟨hi, rfl⟩⟩
  · rintro ⟨i, hi, hil⟩
    exact ⟨i, (hleaf i hi).1 hil⟩

/-- Settles O59: the built tree of the invariant has `max NLEAF 2` leaves, and every item is one of its laws. -/
theorem invariantGivesTheTreeShape : Obligations.InvariantGivesTheTreeShape := by
  intro s h ht k
  obtain ⟨ft, -, hne, hnleaf, hnnode, hb⟩ := h.tree_built ht
  obtain ⟨hpos, hle, hnodes, hroot⟩ := h.tree_sizes ht
  have hk : (leaves ft (present s.cfg ft)).length = k := by rw [leaves_length ft hne, ← hnleaf]
  have hnsym := Config.two_lt_nsym h.cfgOk
  refine ⟨⟨hpos, hle, hnodes, ?_, ?_, hroot, hb.root_internal⟩, ?_, ?_, ?_, ?_, hb.root_no_parent, h.code_ne_nil_iff ht⟩
  · omega
  · unfold Config.nnodeMax
    omega
  · exact fun i hi => hb.not_internal (hk ▸ hi)
  · intro i hi hlt
    have hki : (s.node i).k = true := hb.internal_iff.2 ⟨hk ▸ hi, hnnode ▸ hlt⟩
    exact ⟨hki, hb.internal_spec hki⟩
  · exact fun i hi => nodeAt_of_ge (hnnode ▸ hi)
  · intro j hj hjr
    obtain ⟨i, hi⟩ := hb.exists_parent (hnnode ▸ hj) hjr
    exact ⟨i, hi, fun i' hi' => hb.parent_unique hi' hi⟩

/-! The widths of the registers (R91, R92). -/

/-- NLEAF and NNODE fit in their widths, whether or not there is a tree (R26). -/
theorem CoreInv.node_counts_lt {s : State} (h : CoreInv s) :
    s.nleaf < 2 ^ (s.cfg.symW + 1) ∧ s.nnode < 2 ^ s.cfg.nidxW := by
  have hnsym := Config.two_lt_nsym h.cfgOk
  unfold Config.nsym at hnsym
  rw [Config.nidxW, Nat.pow_add, Nat.pow_add]
  cases ht : s.tree with
  | false =>
    obtain ⟨-, hnleaf, hnnode, -⟩ := h.noTree ht
    omega
  | true =>
    obtain ⟨-, hle, hnodes, -⟩ := h.tree_sizes ht
    unfold Config.nsym at hle
    omega

/-- ROOT and DPTR are at most NNODE, and below it where there is a tree (R26, R31). -/
theorem CoreInv.node_indices_le {s : State} (h : CoreInv s) : s.root ≤ s.nnode ∧ s.dptr ≤ s.nnode := by
  cases ht : s.tree with
  | false =>
    obtain ⟨-, -, -, hroot, -, hdptr⟩ := h.noTree ht
    omega
  | true =>
    obtain ⟨-, -, -, hroot⟩ := h.tree_sizes ht
    have := (h.dptrOk ht).1
    omega

/-- A register that fits in 32 bits is read exactly (R86). -/
theorem toNat_of_some_ofNat {n : Nat} {v : Word} (hn : n < 2 ^ 32) (h : some (BitVec.ofNat 32 n) = some v) :
    v.toNat = n := by
  cases h
  exact BitVec.toNat_ofNat _ _ |>.trans (Nat.mod_eq_of_lt hn)

/-- Settles O25: each register is within its width, and every width is below 32. -/
theorem csrrValuesAreExact : Obligations.CsrrValuesAreExact := by
  intro s h v
  obtain ⟨hsymPos, hsym, hcntPos, hcnt, hcapPos, hcap⟩ := h.cfgOk
  obtain ⟨hnleaf, hnnode⟩ := h.node_counts_lt
  obtain ⟨hroot, hdptr⟩ := h.node_indices_le
  have hbb := h.bbOk
  have hleafW : 2 ^ (s.cfg.symW + 1) ≤ 2 ^ 22 := Nat.pow_le_pow_right (by decide) (by omega)
  have hnodeW : 2 ^ s.cfg.nidxW ≤ 2 ^ 23 := Nat.pow_le_pow_right (by decide) (by unfold Config.nidxW; omega)
  refine ⟨fun hv => ?_, fun hv => toNat_of_some_ofNat (by omega) hv,
    fun hv => ⟨toNat_of_some_ofNat (by omega) hv, by omega⟩, fun hv => ⟨toNat_of_some_ofNat (by omega) hv, hnleaf⟩,
    fun hv => ⟨toNat_of_some_ofNat (by omega) hv, hnnode⟩, fun hv => ⟨toNat_of_some_ofNat (by omega) hv, by omega⟩,
    fun hv => ⟨toNat_of_some_ofNat (by omega) hv, by omega⟩⟩
  exact toNat_of_some_ofNat (by omega) ((congrArg some (cfgWord_eq s.cfg)).symm.trans hv)

end Sys2Proof.Machine

/-! PROOFS. CMDSEQ, the fault record and the reset values over one command (R32, R34, R48). -/

namespace Sys2Proof.Machine

/-- Every command but `SRST` adds 1 to CMDSEQ (R34). -/
theorem exec_cmdseq {i : Instr} {s t : State} (hi : i ≠ .srst) (h : exec i s = .next t) : t.cmdseq = s.cmdseq + 1 := by
  rcases exec_cases i s with ⟨items, c, hx, -⟩ | ⟨u, items, term, hx, -, -, -, -, hseq, -⟩ | rfl
  · cases hx.symm.trans h
    rfl
  · cases hx.symm.trans h
    exact congrArg (· + 1) hseq
  · contradiction

theorem runWord_of_error {w : Word} {r : Reject} (h : decode w = .error r) (s : State) :
    runWord w s = illegalWord w s := by
  unfold runWord; rw [h]

theorem runWord_of_ok {w : Word} {i : Instr} (h : decode w = .ok i) (s : State) : runWord w s = exec i s := by
  unfold runWord; rw [h]

/-- Every word but `SRST` adds 1 to CMDSEQ, a word that selects no command too (R34). -/
theorem runWord_cmdseq {w : Word} {s t : State} (hw : decode w ≠ .ok .srst) (h : runWord w s = .next t) :
    t.cmdseq = s.cmdseq + 1 := by
  cases hd : decode w with
  | error r =>
    rw [runWord_of_error hd] at h
    cases h
    rfl
  | ok i =>
    rw [runWord_of_ok hd] at h
    exact exec_cmdseq (fun hi => hw (hi ▸ hd)) h

/-- Settles O15, `SRST` apart from all other words. -/
theorem cmdseqCountsEveryCommand : Obligations.CmdseqCountsEveryCommand := by
  refine ⟨fun _ => rfl, fun _ => rfl, fun s w rest hs => ?_⟩
  obtain ⟨t, ht, -, -⟩ := runWord_next w { s with input := rest }
  refine ⟨t, (step_cmd hs).trans ht, fun hw => ?_, fun hw => ?_⟩
  · rw [runWord_of_ok hw] at ht
    cases ht
    rfl
  · rw [runWord_cmdseq hw ht]
    exact BitVec.toNat_add _ _

/-- Settles O17: a command that does not answer ERR took no fault, and completing keeps the fault record. -/
theorem successKeepsFaultRecord : Obligations.SuccessKeepsFaultRecord := by
  intro s t i items term h hout hterm hsrst hclear
  rcases exec_cases i s with ⟨items', c, hx, -⟩ | ⟨u, items', term', hx, -, -, -, -, -, hrecord⟩ | rfl
  · cases hx.symm.trans h
    obtain ⟨-, rfl⟩ : items' = items ∧ .err c = term := by simpa using hout
    exact absurd rfl (hterm c)
  · cases hx.symm.trans h
    exact hrecord hclear
  · contradiction

/-- The replies and the host's input are no state elements of the reset table (R22, R48). -/
theorem HasResetValues.withPorts {s : State} (h : HasResetValues s) (input : List HostEvent) (out : List Reply) :
    HasResetValues { s with input := input, out := out } :=
  ⟨h.ft, h.nm, h.tree, h.ct, h.bb, h.unpack, h.dptr, h.fault, h.eolchar, h.cmdseq, h.consts⟩

/-- Settles O11: both ways to reset leave `State.resetOf`, but for what the host holds. -/
theorem resetValues : Obligations.ResetValues := by
  rintro s t (⟨⟨rest, hs⟩, ht⟩ | ht)
  · rw [step_rst hs] at ht
    cases ht
    exact ⟨(resetOf_hasResetValues s.cfg).withPorts _ _, rfl⟩
  · cases ht
    exact ⟨(resetOf_hasResetValues s.cfg).withPorts _ _, rfl⟩

end Sys2Proof.Machine

/-! PROOFS. The one reply of a command word (R62, R85). -/

namespace Sys2Proof.Machine

/-- Whether or not the word selects a command, it answers one response sequence (R85). -/
theorem runWord_answers (w : Word) (s : State) :
    ∃ t items term, runWord w s = .next t ∧ t.out = s.out ++ [.answered items term] := by
  cases hd : decode w with
  | error r => exact ⟨_, [], .err .illegalCommand, runWord_of_error hd s, rfl⟩
  | ok i =>
    obtain ⟨t, ht, -, -, items, term, hout⟩ := exec_next i s
    exact ⟨t, items, term, (runWord_of_ok hd s).trans ht, hout⟩

/-- Settles O14: taking the word from the input leaves the replies before it. -/
theorem everyCommandAnswersOneReply : Obligations.EveryCommandAnswersOneReply := by
  intro s w rest hs
  obtain ⟨t, items, term, ht, hout⟩ := runWord_answers w { s with input := rest }
  exact ⟨t, items, term, (step_cmd hs).trans ht, hout⟩

end Sys2Proof.Machine

/-! PROOFS. What leaves the tree and the code table alone (R64, R111, R121): every command but `BUILD` and `SRST` the tree,
and every command but those and `DERIVE` the code table. -/

namespace Sys2Proof.Machine

/-- The state elements of the tree (R25 to R27). -/
def State.treePart (s : State) : List Node × Nat × Nat × Nat × Bool := (s.nm, s.nleaf, s.nnode, s.root, s.tree)

/-- The state elements of the code table (R27, R28). -/
def State.codePart (s : State) : Store Bits × Bool := (s.ct, s.codes)

theorem treePart_eq_iff {s t : State} : t.treePart = s.treePart ↔
    t.nm = s.nm ∧ t.nleaf = s.nleaf ∧ t.nnode = s.nnode ∧ t.root = s.root ∧ t.tree = s.tree := by
  simp only [State.treePart, Prod.mk.injEq]

theorem codePart_eq_iff {s t : State} : t.codePart = s.codePart ↔ t.ct = s.ct ∧ t.codes = s.codes := by
  simp only [State.codePart, Prod.mk.injEq]

/-- A next state of the outcome has the tree of `s`. -/
def KeepsTree (s : State) (o : Result) : Prop := ∀ t, o = .next t → t.treePart = s.treePart

/-- A next state of the outcome has the tree and the code table of `s`. -/
def KeepsTreeAndCodes (s : State) (o : Result) : Prop :=
  ∀ t, o = .next t → t.treePart = s.treePart ∧ t.codePart = s.codePart

theorem State.append_keepsTreeAndCodes {s t : State} {bits : Bits} (h : s.append bits = some t) :
    t.treePart = s.treePart ∧ t.codePart = s.codePart := by
  rcases s.append_cases bits with ⟨-, ha⟩ | ⟨-, ha⟩
  · cases ha.symm.trans h
  · cases ha.symm.trans h
    exact ⟨rfl, rfl⟩

section
variable {s : State}

theorem complete_keepsTreeAndCodes {u : State} (h : u.treePart = s.treePart ∧ u.codePart = s.codePart)
    (items : List Item) (term : Terminal) : KeepsTreeAndCodes s (complete u items term) := by
  rintro _ ⟨⟩
  exact h

/-- A fault writes the fault record only (R188). -/
theorem raiseAfter_keepsTreeAndCodes (items : List Item) (c : Cause) (w : Word) :
    KeepsTreeAndCodes s (raiseAfter s items c w) := by
  rintro _ ⟨⟩
  exact ⟨rfl, rfl⟩

theorem raise_keepsTreeAndCodes (c : Cause) (w : Word) : KeepsTreeAndCodes s (raise s c w) :=
  raiseAfter_keepsTreeAndCodes [] c w

theorem execCsrr_keepsTreeAndCodes (addr : BitVec 4) : KeepsTreeAndCodes s (execCsrr addr s) := by
  unfold execCsrr
  split
  · exact raise_keepsTreeAndCodes _ _
  · exact complete_keepsTreeAndCodes ⟨rfl, rfl⟩ _ _

theorem execCsrw_keepsTreeAndCodes (addr : BitVec 4) (value : BitVec 22) :
    KeepsTreeAndCodes s (execCsrw addr value s) := by
  unfold execCsrw
  split
  · split
    · exact complete_keepsTreeAndCodes ⟨rfl, rfl⟩ _ _
    · exact raise_keepsTreeAndCodes _ _
  · split
    · split
      · exact complete_keepsTreeAndCodes ⟨rfl, rfl⟩ _ _
      · exact raise_keepsTreeAndCodes _ _
    · exact raise_keepsTreeAndCodes _ _

theorem execFsym_keepsTreeAndCodes (S : Bool) (char : BitVec 21) : KeepsTreeAndCodes s (execFsym S char s) := by
  unfold execFsym
  split
  · exact raise_keepsTreeAndCodes _ _
  · split
    · exact raise_keepsTreeAndCodes _ _
    · exact complete_keepsTreeAndCodes ⟨rfl, rfl⟩ _ _

theorem execFrd_keepsTreeAndCodes (S : Bool) (char : BitVec 21) : KeepsTreeAndCodes s (execFrd S char s) := by
  unfold execFrd
  split
  · exact raise_keepsTreeAndCodes _ _
  · exact complete_keepsTreeAndCodes ⟨rfl, rfl⟩ _ _

/-- `DERIVE` writes CT and CODES only (R121). -/
theorem execDerive_keepsTree : KeepsTree s (execDerive s) := by
  unfold execDerive
  split
  · rintro _ ⟨⟩
    rfl
  · exact fun t ht => (raise_keepsTreeAndCodes _ _ t ht).1

theorem execEsym_keepsTreeAndCodes (S : Bool) (char : BitVec 21) : KeepsTreeAndCodes s (execEsym S char s) := by
  unfold execEsym
  split
  · exact raise_keepsTreeAndCodes _ _
  · split
    · exact raise_keepsTreeAndCodes _ _
    · split
      · exact raise_keepsTreeAndCodes _ _
      · split
        · exact raise_keepsTreeAndCodes _ _
        · exact complete_keepsTreeAndCodes (State.append_keepsTreeAndCodes ‹_›) _ _

theorem execDrun_keepsTreeAndCodes : KeepsTreeAndCodes s (execDrun s) := by
  unfold execDrun
  split
  · exact raise_keepsTreeAndCodes _ _
  · split
    · exact raiseAfter_keepsTreeAndCodes _ _ _
    · exact complete_keepsTreeAndCodes ⟨rfl, rfl⟩ _ _

theorem execDend_keepsTreeAndCodes : KeepsTreeAndCodes s (execDend s) := by
  unfold execDend
  split
  · exact raise_keepsTreeAndCodes _ _
  · split
    · exact raise_keepsTreeAndCodes _ _
    · exact complete_keepsTreeAndCodes ⟨rfl, rfl⟩ _ _

theorem execBput_keepsTreeAndCodes (n : BitVec 5) (bits : BitVec 16) : KeepsTreeAndCodes s (execBput n bits s) := by
  unfold execBput
  split
  · exact raise_keepsTreeAndCodes _ _
  · split
    · exact raise_keepsTreeAndCodes _ _
    · exact complete_keepsTreeAndCodes (State.append_keepsTreeAndCodes ‹_›) _ _

theorem execBget_keepsTreeAndCodes (idx : BitVec 26) : KeepsTreeAndCodes s (execBget idx s) := by
  unfold execBget
  split
  · exact raise_keepsTreeAndCodes _ _
  · exact complete_keepsTreeAndCodes ⟨rfl, rfl⟩ _ _

theorem execUbyte_keepsTreeAndCodes (byte : Byte) : KeepsTreeAndCodes s (execUbyte byte s) := by
  unfold execUbyte
  split
  · split
    · exact raise_keepsTreeAndCodes _ _
    · exact complete_keepsTreeAndCodes ⟨rfl, rfl⟩ _ _
  · split
    · exact raise_keepsTreeAndCodes _ _
    · have happend := State.append_keepsTreeAndCodes ‹_›
      refine complete_keepsTreeAndCodes ?_ _ _
      exact happend

theorem execUend_keepsTreeAndCodes : KeepsTreeAndCodes s (execUend s) := by
  unfold execUend
  split
  · exact raise_keepsTreeAndCodes _ _
  · split
    · exact raise_keepsTreeAndCodes _ _
    · exact complete_keepsTreeAndCodes ⟨rfl, rfl⟩ _ _

/-- Every command but `BUILD`, `SRST` and `DERIVE`. -/
theorem exec_keepsTreeAndCodes {i : Instr} (hb : i ≠ .build) (hs : i ≠ .srst) (hd : i ≠ .derive) :
    KeepsTreeAndCodes s (exec i s) :=
  match i with
  | .nop => complete_keepsTreeAndCodes ⟨rfl, rfl⟩ _ _
  | .csrr addr => execCsrr_keepsTreeAndCodes addr
  | .csrw addr value => execCsrw_keepsTreeAndCodes addr value
  | .srst => absurd rfl hs
  | .fclr => complete_keepsTreeAndCodes ⟨rfl, rfl⟩ _ _
  | .fsym S char => execFsym_keepsTreeAndCodes S char
  | .frd S char => execFrd_keepsTreeAndCodes S char
  | .build => absurd rfl hb
  | .derive => absurd rfl hd
  | .esym S char => execEsym_keepsTreeAndCodes S char
  | .drun => execDrun_keepsTreeAndCodes
  | .dend => execDend_keepsTreeAndCodes
  | .bclr => complete_keepsTreeAndCodes ⟨rfl, rfl⟩ _ _
  | .bput n bits => execBput_keepsTreeAndCodes n bits
  | .bget idx => execBget_keepsTreeAndCodes idx
  | .pack => complete_keepsTreeAndCodes ⟨rfl, rfl⟩ _ _
  | .ubyte byte => execUbyte_keepsTreeAndCodes byte
  | .uend => execUend_keepsTreeAndCodes

end

/-- Settles O20, `DERIVE` apart from the commands that write neither. -/
theorem onlyBuildWritesTheTree : Obligations.OnlyBuildWritesTheTree := by
  intro s t i h hb hs
  by_cases hd : i = .derive
  · subst hd
    obtain ⟨hnm, hnleaf, hnnode, hroot, htree⟩ := treePart_eq_iff.1 (execDerive_keepsTree t h)
    exact ⟨hnm, hnleaf, hnnode, hroot, htree, absurd rfl⟩
  · obtain ⟨htp, hcp⟩ := exec_keepsTreeAndCodes hb hs hd t h
    obtain ⟨hnm, hnleaf, hnnode, hroot, htree⟩ := treePart_eq_iff.1 htp
    exact ⟨hnm, hnleaf, hnnode, hroot, htree, fun _ => codePart_eq_iff.1 hcp⟩

end Sys2Proof.Machine

/-! PROOFS. The three reads CSRR, FRD and BGET (R60): one description for all, and what a read's own end leaves of the value
it reads. -/

namespace Sys2Proof.Machine

/-- A read whose value does not depend on how many commands have run (R60). -/
def IsRepeatableRead (i : Instr) : Prop :=
  (∃ a, i = .csrr a ∧ a ≠ 0x5#4) ∨ (∃ S ch, i = .frd S ch) ∨ ∃ x, i = .bget x

/-- The value a read answers, or none where its operand is illegal (R102, R152, R171). -/
def State.readValue (s : State) : Instr → Option Word
  | .csrr a => s.csrRead a
  | .frd S ch => (symid s.cfg S ch).map fun id => BitVec.ofNat 32 (s.count id)
  | .bget x => s.bb[x.toNat]?.map fun b => (BitVec.ofBool b).setWidth 32
  | _ => none

theorem exec_read_of_none {i : Instr} {s : State} (hi : IsRepeatableRead i) (h : s.readValue i = none) :
    exec i s = .next (s.afterFault [] .illegalCommand (encode i)) := by
  rcases hi with ⟨a, rfl, -⟩ | ⟨S, ch, rfl⟩ | ⟨x, rfl⟩
  · have h : s.csrRead a = none := h
    simp only [exec, execCsrr, h]
    rfl
  · have h : symid s.cfg S ch = none := Option.map_eq_none_iff.1 h
    simp only [exec, execFrd, h]
    rfl
  · have h : s.bb[x.toNat]? = none := Option.map_eq_none_iff.1 h
    simp only [exec, execBget, h]
    rfl

theorem exec_read_of_some {i : Instr} {s : State} {v : Word} (hi : IsRepeatableRead i) (h : s.readValue i = some v) :
    exec i s = complete s [] (.value v) := by
  rcases hi with ⟨a, rfl, -⟩ | ⟨S, ch, rfl⟩ | ⟨x, rfl⟩
  · have h : s.csrRead a = some v := h
    simp only [exec, execCsrr, h]
  · obtain ⟨id, hid, rfl⟩ : ∃ id, symid s.cfg S ch = some id ∧ BitVec.ofNat 32 (s.count id) = v :=
      Option.map_eq_some_iff.1 h
    simp only [exec, execFrd, hid]
  · obtain ⟨b, hb, rfl⟩ : ∃ b, s.bb[x.toNat]? = some b ∧ (BitVec.ofBool b).setWidth 32 = v :=
      Option.map_eq_some_iff.1 h
    simp only [exec, execBget, hb]

/-- Ending a command changes no register but CMDSEQ (R34). -/
theorem State.csrRead_answer {a : BitVec 4} (ha : a ≠ 0x5#4) (s : State) (items : List Item) (t : Terminal) :
    (s.answer items t).csrRead a = s.csrRead a := by
  have ha : a.toNat ≠ 5 := fun h => ha (BitVec.eq_of_toNat_eq h)
  unfold State.csrRead
  split
  case h_6 h5 => exact absurd h5 ha
  all_goals rfl

/-- Which addresses are reserved does not depend on the state (R46). -/
theorem State.csrRead_eq_none_iff (s : State) (a : BitVec 4) : s.csrRead a = none ↔ 0xD < a.toNat := by
  unfold State.csrRead
  split
  case h_15 => exact ⟨fun _ => by grind, fun _ => rfl⟩
  all_goals exact ⟨nofun, fun _ => by omega⟩

theorem State.readValue_answer {i : Instr} (hi : IsRepeatableRead i) (s : State) (items : List Item) (t : Terminal) :
    (s.answer items t).readValue i = s.readValue i := by
  rcases hi with ⟨a, rfl, ha⟩ | ⟨S, ch, rfl⟩ | ⟨x, rfl⟩
  · exact s.csrRead_answer ha items t
  · rfl
  · rfl

/-- Taking a fault makes no illegal operand legal. -/
theorem State.readValue_afterFault_eq_none {i : Instr} {s : State} (hi : IsRepeatableRead i) (h : s.readValue i = none)
    (items : List Item) (c : Cause) (w : Word) : (s.afterFault items c w).readValue i = none := by
  rcases hi with ⟨a, rfl, -⟩ | ⟨S, ch, rfl⟩ | ⟨x, rfl⟩
  · exact (State.csrRead_eq_none_iff _ a).2 ((s.csrRead_eq_none_iff a).1 h)
  · exact h
  · exact h

/-- The last reply determines its terminal. -/
theorem terminal_eq_of_out_eq {out : List Reply} {items items' : List Item} {term term' : Terminal}
    (h : out ++ [.answered items term] = out ++ [.answered items' term']) : term = term' := by
  simp only [List.append_cancel_left_eq, List.cons.injEq, Reply.answered.injEq, and_true] at h
  exact h.2

/-- Settles O21: an illegal operand stays illegal, and a value read is there to be read again. -/
theorem readsRepeat : Obligations.ReadsRepeat := by
  intro s t u i items items' term term' hi ht hout hu hout'
  cases hv : s.readValue i with
  | none =>
    cases (exec_read_of_none hi hv).symm.trans ht
    cases (exec_read_of_none hi (State.readValue_afterFault_eq_none hi hv _ _ _)).symm.trans hu
    obtain rfl := terminal_eq_of_out_eq hout
    obtain rfl := terminal_eq_of_out_eq hout'
    exact ⟨rfl, fun hterm => absurd rfl (hterm .illegalCommand)⟩
  | some v =>
    cases (exec_read_of_some hi hv).symm.trans ht
    cases (exec_read_of_some hi ((State.readValue_answer hi _ _ _).trans hv)).symm.trans hu
    obtain rfl := terminal_eq_of_out_eq hout
    obtain rfl := terminal_eq_of_out_eq hout'
    exact ⟨rfl, fun _ => rfl⟩

end Sys2Proof.Machine

/-! PROOFS. The bit order of packed bytes (R53). -/

namespace Sys2Proof.Machine

theorem bitsValue_concat (g : Bits) (b : Bool) : bitsValue (g ++ [b]) = 2 * bitsValue g + b.toNat :=
  List.foldl_concat ..

theorem bitsValue_lt (g : Bits) : bitsValue g < 2 ^ g.length := by
  induction g using List.reverseRecOn with
  | nil => exact Nat.one_pos
  | append_singleton g b ih =>
    have hb := b.toNat_lt
    rw [bitsValue_concat, List.length_append, List.length_singleton, pow_succ]
    omega

/-- A group of eight bits is a number of 8 bits, so its byte holds it whole. -/
theorem toNat_ofNat_bitsValue {g : Bits} (h : g.length = 8) : (BitVec.ofNat 8 (bitsValue g)).toNat = bitsValue g :=
  BitVec.toNat_ofNat _ _ |>.trans (Nat.mod_eq_of_lt (h ▸ bitsValue_lt g))

theorem bitsValue_group (b0 b1 b2 b3 b4 b5 b6 b7 : Bool) : bitsValue [b0, b1, b2, b3, b4, b5, b6, b7] =
    b0.toNat * 2 ^ 7 + b1.toNat * 2 ^ 6 + b2.toNat * 2 ^ 5 + b3.toNat * 2 ^ 4 + b4.toNat * 2 ^ 3 + b5.toNat * 2 ^ 2 +
      b6.toNat * 2 + b7.toNat := by
  simp only [bitsValue, List.foldl_cons, List.foldl_nil]
  omega

/-- Settles O54: a group of eight is one byte of the group's value, and the laws of bit order give the rest. -/
theorem bytesAreMostSignificantBitFirst : Obligations.BytesAreMostSignificantBitFirst :=
  ⟨fun b0 b1 b2 b3 b4 b5 b6 b7 =>
      ⟨_, rfl, (toNat_ofNat_bitsValue rfl).trans (bitsValue_group b0 b1 b2 b3 b4 b5 b6 b7)⟩,
    byteBits_eq, flatMap_byteBits_packedBytes, packedBytes_flatMap_byteBits⟩

end Sys2Proof.Machine

/-! PROOFS. Decoding and encoding (R71, R72, R74 to R76): a word selects a command exactly when it is the command's one
encoding, and the mask-and-match table picks out the same words. -/

namespace Sys2Proof

/-- Settles O1, a case per format of R72: the opcode leads back to the format, and the format reads back its fields. -/
theorem encodedCommandDecodesToItself : Obligations.EncodedCommandDecodesToItself := by
  intro i
  cases i with
  | nop | srst | fclr | build | derive | drun | dend | bclr | pack | uend =>
    simp only [encode, decode, opcode_wordN, formatN_wordN]
  | fsym S char | frd S char | esym S char => simp only [encode, decode, opcode_wordS, formatS_wordS]
  | csrr addr => simp only [encode, decode, opcode_wordR, formatR_wordR]
  | csrw addr value => simp only [encode, decode, opcode_wordW, formatW_wordW]
  | bput n bits => simp only [encode, decode, opcode_wordL, formatL_wordL]
  | bget idx => simp only [encode, decode, opcode_wordI, formatI_wordI]
  | ubyte byte => simp only [encode, decode, opcode_wordB, formatB_wordB]

/-! A format that accepts a word of the opcode `op` makes a command whose encoding is the word. -/

section
variable {w : Word} {op : BitVec 6} {j : Instr}

theorem encode_of_formatN {i : Instr} (hi : encode i = wordN op) (ho : opcode w = op) (h : formatN w i = .ok j) :
    encode j = w := by
  obtain ⟨hz, rfl⟩ := formatN_ok.1 h
  exact hi.trans (wordN_eq ho hz)

theorem encode_of_formatS {mk : Bool → BitVec 21 → Instr} (hmk : ∀ S char, encode (mk S char) = wordS op S char)
    (ho : opcode w = op) (h : formatS w mk = .ok j) : encode j = w := by
  obtain ⟨hz, rfl⟩ := formatS_ok.1 h
  exact (hmk _ _).trans (wordS_eq ho hz)

theorem encode_of_formatR {mk : BitVec 4 → Instr} (hmk : ∀ addr, encode (mk addr) = wordR op addr)
    (ho : opcode w = op) (h : formatR w mk = .ok j) : encode j = w := by
  obtain ⟨hz, rfl⟩ := formatR_ok.1 h
  exact (hmk _).trans (wordR_eq ho hz)

theorem encode_of_formatW {mk : BitVec 4 → BitVec 22 → Instr}
    (hmk : ∀ addr value, encode (mk addr value) = wordW op addr value)
    (ho : opcode w = op) (h : formatW w mk = .ok j) : encode j = w := by
  obtain rfl := formatW_ok.1 h
  exact (hmk _ _).trans (wordW_eq ho)

theorem encode_of_formatL {mk : BitVec 5 → BitVec 16 → Instr} (hmk : ∀ n bits, encode (mk n bits) = wordL op n bits)
    (ho : opcode w = op) (h : formatL w mk = .ok j) : encode j = w := by
  obtain ⟨hz, rfl⟩ := formatL_ok.1 h
  exact (hmk _ _).trans (wordL_eq ho hz)

theorem encode_of_formatI {mk : BitVec 26 → Instr} (hmk : ∀ idx, encode (mk idx) = wordI op idx)
    (ho : opcode w = op) (h : formatI w mk = .ok j) : encode j = w := by
  obtain rfl := formatI_ok.1 h
  exact (hmk _).trans (wordI_eq ho)

theorem encode_of_formatB {mk : Byte → Instr} (hmk : ∀ byte, encode (mk byte) = wordB op byte)
    (ho : opcode w = op) (h : formatB w mk = .ok j) : encode j = w := by
  obtain ⟨hz, rfl⟩ := formatB_ok.1 h
  exact (hmk _).trans (wordB_eq ho hz)

end

/-- Settles O2, by the 18 ways a word selects a command: each format is put together again from its fields. -/
theorem decodedWordIsItsEncoding : Obligations.DecodedWordIsItsEncoding := by
  intro w i h
  rcases decode_ok h with ⟨ho, hf⟩ | ⟨ho, hf⟩ | ⟨ho, hf⟩ | ⟨ho, hf⟩ | ⟨ho, hf⟩ | ⟨ho, hf⟩ | ⟨ho, hf⟩ | ⟨ho, hf⟩ |
    ⟨ho, hf⟩ | ⟨ho, hf⟩ | ⟨ho, hf⟩ | ⟨ho, hf⟩ | ⟨ho, hf⟩ | ⟨ho, hf⟩ | ⟨ho, hf⟩ | ⟨ho, hf⟩ | ⟨ho, hf⟩ | ⟨ho, hf⟩
  · exact encode_of_formatN rfl ho hf
  · exact encode_of_formatR (fun _ => rfl) ho hf
  · exact encode_of_formatW (fun _ _ => rfl) ho hf
  · exact encode_of_formatN rfl ho hf
  · exact encode_of_formatN rfl ho hf
  · exact encode_of_formatS (fun _ _ => rfl) ho hf
  · exact encode_of_formatS (fun _ _ => rfl) ho hf
  · exact encode_of_formatN rfl ho hf
  · exact encode_of_formatN rfl ho hf
  · exact encode_of_formatS (fun _ _ => rfl) ho hf
  · exact encode_of_formatN rfl ho hf
  · exact encode_of_formatN rfl ho hf
  · exact encode_of_formatN rfl ho hf
  · exact encode_of_formatL (fun _ _ => rfl) ho hf
  · exact encode_of_formatI (fun _ => rfl) ho hf
  · exact encode_of_formatN rfl ho hf
  · exact encode_of_formatB (fun _ => rfl) ho hf
  · exact encode_of_formatN rfl ho hf

/-- Decoding and encoding are each other's inverse (R71, R74). -/
theorem decode_eq_ok_iff {w : Word} {i : Instr} : decode w = .ok i ↔ encode i = w :=
  ⟨decodedWordIsItsEncoding w i, fun h => h ▸ encodedCommandDecodesToItself i⟩

/-- Matching a row's pattern under the mask of the bits from `k` up asks for the row's opcode and for no bit set between
bit `k` and the opcode (R75). -/
theorem matches_iff_fields {w : Word} {op : BitVec 6} {k : Nat} (hk : k ≤ 26) :
    w &&& (BitVec.allOnes 32 <<< k) = (op ++ 0#26 : BitVec 32) ↔
      opcode w = op ∧ w.extractLsb' k (26 - k) = 0#(26 - k) := by
  refine ⟨fun h => ?_, fun ⟨ho, hz⟩ => matches_of_fields k hk ho hz⟩
  have hbit : ∀ i, k ≤ i → i < 32 → w.getLsbD i = (op ++ 0#26 : BitVec 32).getLsbD i := by
    intro i hki hi
    rw [← h, BitVec.getLsbD_and, BitVec.getLsbD_shiftLeft, BitVec.getLsbD_allOnes]
    simp [hi, hki, show i - k < 32 by omega]
  refine ⟨?_, BitVec.eq_of_getLsbD_eq fun i hi => ?_⟩
  · rw [← opcode_append op 0#26]
    refine BitVec.eq_of_getLsbD_eq fun i hi => ?_
    rw [opcode, opcode, BitVec.getLsbD_extractLsb', BitVec.getLsbD_extractLsb', hbit (26 + i) (by omega) (by omega)]
  · rw [BitVec.getLsbD_extractLsb', hbit (k + i) (by omega) (by omega), getLsbD_inside _ _ (by omega)]
    simp

/-! A word that matches the row of an opcode is a word of the row's format. -/

section
variable {w : Word} {op : BitVec 6}

theorem wordN_of_matches (h : w &&& 0xFFFFFFFF#32 = (op ++ 0#26 : BitVec 32)) : wordN op = w :=
  have ⟨ho, hz⟩ := (matches_iff_fields (k := 0) (by decide)).1 h
  wordN_eq ho hz

theorem wordS_of_matches (h : w &&& 0xFFC00000#32 = (op ++ 0#26 : BitVec 32)) :
    wordS op (w.getLsbD 21) (w.extractLsb' 0 21) = w :=
  have ⟨ho, hz⟩ := (matches_iff_fields (k := 22) (by decide)).1 h
  wordS_eq ho hz

theorem wordR_of_matches (h : w &&& 0xFFFFFFF0#32 = (op ++ 0#26 : BitVec 32)) : wordR op (w.extractLsb' 0 4) = w :=
  have ⟨ho, hz⟩ := (matches_iff_fields (k := 4) (by decide)).1 h
  wordR_eq ho hz

theorem wordW_of_matches (h : w &&& 0xFC000000#32 = (op ++ 0#26 : BitVec 32)) :
    wordW op (w.extractLsb' 22 4) (w.extractLsb' 0 22) = w :=
  wordW_eq ((matches_iff_fields (k := 26) (by decide)).1 h).1

theorem wordL_of_matches (h : w &&& 0xFFE00000#32 = (op ++ 0#26 : BitVec 32)) :
    wordL op (w.extractLsb' 16 5) (w.extractLsb' 0 16) = w :=
  have ⟨ho, hz⟩ := (matches_iff_fields (k := 21) (by decide)).1 h
  wordL_eq ho hz

theorem wordI_of_matches (h : w &&& 0xFC000000#32 = (op ++ 0#26 : BitVec 32)) : wordI op (w.extractLsb' 0 26) = w :=
  wordI_eq ((matches_iff_fields (k := 26) (by decide)).1 h).1

theorem wordB_of_matches (h : w &&& 0xFFFFFF00#32 = (op ++ 0#26 : BitVec 32)) : wordB op (w.extractLsb' 0 8) = w :=
  have ⟨ho, hz⟩ := (matches_iff_fields (k := 8) (by decide)).1 h
  wordB_eq ho hz

end

/-- A word that matches a row is the encoding of a command with the row's mnemonic (R75, R76). -/
theorem exists_encode_of_matches {w : Word} {row : Row} (hrow : row ∈ opcodeMap) (h : w &&& row.mask = row.pattern) :
    ∃ i, encode i = w ∧ i.mnemonic = row.mnemonic := by
  simp only [opcodeMap, List.cons_append, List.nil_append, List.mem_cons, List.not_mem_nil, or_false] at hrow
  rcases hrow with rfl | rfl | rfl | rfl | rfl | rfl | rfl | rfl | rfl | rfl | rfl | rfl | rfl | rfl | rfl | rfl | rfl | rfl
  · exact ⟨.nop, wordN_of_matches h, rfl⟩
  · exact ⟨.csrr _, wordR_of_matches h, rfl⟩
  · exact ⟨.csrw _ _, wordW_of_matches h, rfl⟩
  · exact ⟨.srst, wordN_of_matches h, rfl⟩
  · exact ⟨.fclr, wordN_of_matches h, rfl⟩
  · exact ⟨.fsym _ _, wordS_of_matches h, rfl⟩
  · exact ⟨.frd _ _, wordS_of_matches h, rfl⟩
  · exact ⟨.build, wordN_of_matches h, rfl⟩
  · exact ⟨.derive, wordN_of_matches h, rfl⟩
  · exact ⟨.esym _ _, wordS_of_matches h, rfl⟩
  · exact ⟨.drun, wordN_of_matches h, rfl⟩
  · exact ⟨.dend, wordN_of_matches h, rfl⟩
  · exact ⟨.bclr, wordN_of_matches h, rfl⟩
  · exact ⟨.bput _ _, wordL_of_matches h, rfl⟩
  · exact ⟨.bget _, wordI_of_matches h, rfl⟩
  · exact ⟨.pack, wordN_of_matches h, rfl⟩
  · exact ⟨.ubyte _, wordB_of_matches h, rfl⟩
  · exact ⟨.uend, wordN_of_matches h, rfl⟩

/-- The encoding of every command matches the row of its mnemonic (R75, R76). -/
theorem exists_row_of_encode (i : Instr) : Laws.Row.Statement i :=
  match i with
  | .nop => Laws.Row.nop
  | .csrr addr => Laws.Row.csrr addr
  | .csrw addr value => Laws.Row.csrw addr value
  | .srst => Laws.Row.srst
  | .fclr => Laws.Row.fclr
  | .fsym S char => Laws.Row.fsym S char
  | .frd S char => Laws.Row.frd S char
  | .build => Laws.Row.build
  | .derive => Laws.Row.derive
  | .esym S char => Laws.Row.esym S char
  | .drun => Laws.Row.drun
  | .dend => Laws.Row.dend
  | .bclr => Laws.Row.bclr
  | .bput n bits => Laws.Row.bput n bits
  | .bget idx => Laws.Row.bget idx
  | .pack => Laws.Row.pack
  | .ubyte byte => Laws.Row.ubyte byte
  | .uend => Laws.Row.uend

/-- The mnemonic names the row. -/
theorem opcodeMap_mnemonic_injective : ∀ a ∈ opcodeMap, ∀ b ∈ opcodeMap, a.mnemonic = b.mnemonic → a = b := by
  decide

/-- A word matches a row exactly when it selects a command with the row's mnemonic (R75). -/
theorem matches_row_iff {w : Word} {row : Row} (hrow : row ∈ opcodeMap) :
    w &&& row.mask = row.pattern ↔ ∃ i, decode w = .ok i ∧ i.mnemonic = row.mnemonic := by
  simp only [decode_eq_ok_iff]
  refine ⟨exists_encode_of_matches hrow, ?_⟩
  rintro ⟨i, rfl, hi⟩
  obtain ⟨row', hrow', hm, hmatch⟩ := exists_row_of_encode i
  rwa [opcodeMap_mnemonic_injective row hrow row' hrow' (hi.symm.trans hm.symm)]

/-- Settles O3: two rows that one word matches bear the mnemonic of the one command it selects. -/
theorem rowSelectedByMaskAndMatch : Obligations.RowSelectedByMaskAndMatch := by
  refine ⟨fun w row => matches_row_iff, fun w a b ha hb hwa hwb => ?_, by decide⟩
  obtain ⟨i, hi, hia⟩ := (matches_row_iff ha).1 hwa
  obtain ⟨j, hj, hjb⟩ := (matches_row_iff hb).1 hwb
  cases hi.symm.trans hj
  exact opcodeMap_mnemonic_injective a ha b hb (hia.symm.trans hjb)

end Sys2Proof

/-! PROOFS. Symbol operands (R73), the response words (R86) and the response sequence of each command (R87). -/

namespace Sys2Proof.Machine

/-- Settles O22, kind by kind; data narrower than the response word is extended with zeros. -/
theorem causeCodesAndResponseWords : Obligations.CauseCodesAndResponseWords :=
  ⟨⟨rfl, rfl, rfl, rfl, rfl, rfl, rfl⟩, rfl, fun _ => rfl,
    fun b => congrArg (Prod.mk 2) (BitVec.setWidth_eq_append (by decide)),
    fun v => congrArg (Prod.mk 3) (BitVec.setWidth_eq_append (by decide)),
    fun c => congrArg (Prod.mk 7) (BitVec.setWidth_eq_append (by decide))⟩

/-! The arms of `symid` (R73). -/

theorem symid_sentinel (c : Config) : symid c true 0#21 = some (2 ^ c.symW) := rfl

theorem symid_sentinel_with_char (c : Config) {char : BitVec 21} (h : char ≠ 0#21) : symid c true char = none :=
  if_neg h

theorem symid_char {c : Config} {char : BitVec 21} (h : char.toNat < 2 ^ c.symW) :
    symid c false char = some char.toNat :=
  if_pos h

theorem symid_large_char {c : Config} {char : BitVec 21} (h : 2 ^ c.symW ≤ char.toNat) : symid c false char = none :=
  if_neg h.not_gt

/-- No character has the sentinel's SymId, which is the first number past the characters (R9). -/
theorem symid_char_ne_sentinel (c : Config) (char : BitVec 21) : symid c false char ≠ symid c true 0#21 := by
  rcases lt_or_ge char.toNat (2 ^ c.symW) with h | h
  · rw [symid_char h, symid_sentinel]
    exact fun he => h.ne (Option.some.inj he)
  · rw [symid_large_char h]
    nofun

/-- A symbol operand that names no symbol is IllegalCommand in each command that has one (R74, R77). -/
theorem exec_of_no_symbol {s : State} {S : Bool} {char : BitVec 21} (h : symid s.cfg S char = none) {i : Instr}
    (hi : i = .fsym S char ∨ i = .frd S char ∨ i = .esym S char) : exec i s = raise s .illegalCommand (encode i) := by
  rcases hi with rfl | rfl | rfl
  · simp only [exec, execFsym, h]
  · simp only [exec, execFrd, h]
  · simp only [exec, execEsym, h]

/-- Settles O5, by the arms of `symid`. -/
theorem symbolOperandNamesSymbol : Obligations.SymbolOperandNamesSymbol :=
  ⟨fun c => ⟨symid_sentinel c, fun _ => symid_sentinel_with_char c, fun _ => symid_char, fun _ => symid_large_char,
      symid_char_ne_sentinel c⟩,
    fun _ _ _ h => ⟨exec_of_no_symbol h (.inl rfl), exec_of_no_symbol h (.inr (.inl rfl)),
      exec_of_no_symbol h (.inr (.inr rfl))⟩⟩

/-! The response sequence of each command. -/

/-- A sequence without items whose terminal is DONE or ERR. -/
def DoneSequence (items : List Item) (term : Terminal) : Prop :=
  items = [] ∧ (term = .done ∨ ∃ c, term = .err c)

/-- A sequence without items whose terminal is VALUE or ERR. -/
def ValueSequence (items : List Item) (term : Terminal) : Prop :=
  items = [] ∧ ((∃ v, term = .value v) ∨ ∃ c, term = .err c)

/-- The sequences of `DRUN`: SYM items and DONE or ERR. -/
def SymSequence (items : List Item) (term : Terminal) : Prop :=
  (∀ x ∈ items, ∃ v, x = .sym v) ∧ (term = .done ∨ ∃ c, term = .err c)

/-- The table of R87: the response sequences a command can answer, `bb` being BB before it. -/
def ResponseSequence (bb : Bits) : Instr → List Item → Terminal → Prop
  | .csrr _ => ValueSequence
  | .frd _ _ => ValueSequence
  | .bget _ => ValueSequence
  | .pack => fun items term => items = packItems bb ∧ term = .done
  | .drun => SymSequence
  | _ => DoneSequence

/-- The outcome is a next state with one more reply, an answer that meets `P`. -/
def Answers (s : State) (o : Result) (P : List Item → Terminal → Prop) : Prop :=
  ∃ t items term, o = .next t ∧ t.out = s.out ++ [.answered items term] ∧ P items term

theorem State.append_out {s t : State} {bits : Bits} (h : s.append bits = some t) : t.out = s.out := by
  rcases s.append_cases bits with ⟨-, ha⟩ | ⟨-, ha⟩
  · cases ha.symm.trans h
  · cases ha.symm.trans h
    rfl

section
variable {s : State}

theorem complete_answers {P : List Item → Terminal → Prop} {u : State} {items : List Item} {term : Terminal}
    (hu : u.out = s.out) (hP : P items term) : Answers s (complete u items term) P :=
  ⟨_, items, term, rfl, by rw [State.answer_out, hu], hP⟩

theorem complete_answers_done {u : State} (hu : u.out = s.out) : Answers s (complete u [] .done) DoneSequence :=
  complete_answers hu ⟨rfl, .inl rfl⟩

theorem complete_answers_value (v : Word) : Answers s (complete s [] (.value v)) ValueSequence :=
  complete_answers rfl ⟨rfl, .inl ⟨v, rfl⟩⟩

theorem raise_answers_done (c : Cause) (w : Word) : Answers s (raise s c w) DoneSequence :=
  ⟨_, [], .err c, rfl, rfl, rfl, .inr ⟨c, rfl⟩⟩

theorem raise_answers_value (c : Cause) (w : Word) : Answers s (raise s c w) ValueSequence :=
  ⟨_, [], .err c, rfl, rfl, rfl, .inr ⟨c, rfl⟩⟩

theorem execCsrr_answers (addr : BitVec 4) : Answers s (execCsrr addr s) ValueSequence := by
  unfold execCsrr
  split
  · exact raise_answers_value _ _
  · exact complete_answers_value _

theorem execCsrw_answers (addr : BitVec 4) (value : BitVec 22) : Answers s (execCsrw addr value s) DoneSequence := by
  unfold execCsrw
  split
  · split
    · exact complete_answers_done rfl
    · exact raise_answers_done _ _
  · split
    · split
      · exact complete_answers_done rfl
      · exact raise_answers_done _ _
    · exact raise_answers_done _ _

theorem execFsym_answers (S : Bool) (char : BitVec 21) : Answers s (execFsym S char s) DoneSequence := by
  unfold execFsym
  split
  · exact raise_answers_done _ _
  · split
    · exact raise_answers_done _ _
    · exact complete_answers_done rfl

theorem execFrd_answers (S : Bool) (char : BitVec 21) : Answers s (execFrd S char s) ValueSequence := by
  unfold execFrd
  split
  · exact raise_answers_value _ _
  · exact complete_answers_value _

theorem execBuild_answers : Answers s (execBuild s) DoneSequence := by
  unfold execBuild
  split
  · exact raise_answers_done _ _
  · exact complete_answers_done rfl

theorem execDerive_answers : Answers s (execDerive s) DoneSequence := by
  unfold execDerive
  split
  · exact complete_answers_done rfl
  · exact raise_answers_done _ _

theorem execEsym_answers (S : Bool) (char : BitVec 21) : Answers s (execEsym S char s) DoneSequence := by
  unfold execEsym
  split
  · exact raise_answers_done _ _
  · split
    · exact raise_answers_done _ _
    · split
      · exact raise_answers_done _ _
      · split
        · exact raise_answers_done _ _
        · exact complete_answers_done (State.append_out ‹_›)

/-- The walk emits SYM items only, before a fault too (R141). -/
theorem execDrun_answers : Answers s (execDrun s) SymSequence := by
  unfold execDrun
  have hsym := s.walk_items s.bb s.dptr
  split
  · exact ⟨_, [], .err .uninitializedCode, rfl, rfl, nofun, .inr ⟨_, rfl⟩⟩
  · split
    · next items hw =>
      rw [hw] at hsym
      exact ⟨_, items, .err .malformedStream, rfl, rfl, hsym, .inr ⟨_, rfl⟩⟩
    · next items p hw =>
      rw [hw] at hsym
      exact complete_answers rfl ⟨hsym, .inl rfl⟩

theorem execDend_answers : Answers s (execDend s) DoneSequence := by
  unfold execDend
  split
  · exact raise_answers_done _ _
  · split
    · exact raise_answers_done _ _
    · exact complete_answers_done rfl

theorem execBput_answers (n : BitVec 5) (bits : BitVec 16) : Answers s (execBput n bits s) DoneSequence := by
  unfold execBput
  split
  · exact raise_answers_done _ _
  · split
    · exact raise_answers_done _ _
    · exact complete_answers_done (State.append_out ‹_›)

theorem execBget_answers (idx : BitVec 26) : Answers s (execBget idx s) ValueSequence := by
  unfold execBget
  split
  · exact raise_answers_value _ _
  · exact complete_answers_value _

theorem execUbyte_answers (byte : Byte) : Answers s (execUbyte byte s) DoneSequence := by
  unfold execUbyte
  split
  · split
    · exact raise_answers_done _ _
    · exact complete_answers_done rfl
  · split
    · exact raise_answers_done _ _
    · have hout := State.append_out ‹_›
      exact complete_answers_done hout

theorem execUend_answers : Answers s (execUend s) DoneSequence := by
  unfold execUend
  split
  · exact raise_answers_done _ _
  · split
    · exact raise_answers_done _ _
    · exact complete_answers_done rfl

/-- Every command answers by the table of R87. -/
theorem exec_answers (i : Instr) : Answers s (exec i s) (ResponseSequence s.bb i) :=
  match i with
  | .nop => complete_answers_done rfl
  | .csrr addr => execCsrr_answers addr
  | .csrw addr value => execCsrw_answers addr value
  | .srst => ⟨_, [], .done, rfl, rfl, rfl, .inl rfl⟩
  | .fclr => complete_answers_done rfl
  | .fsym S char => execFsym_answers S char
  | .frd S char => execFrd_answers S char
  | .build => execBuild_answers
  | .derive => execDerive_answers
  | .esym S char => execEsym_answers S char
  | .drun => execDrun_answers
  | .dend => execDend_answers
  | .bclr => complete_answers_done rfl
  | .bput n bits => execBput_answers n bits
  | .bget idx => execBget_answers idx
  | .pack => complete_answers rfl ⟨rfl, rfl⟩
  | .ubyte byte => execUbyte_answers byte
  | .uend => execUend_answers

/-- The reply that a command did answer is the one of the table. -/
theorem exec_responseSequence {t : State} {i : Instr} {items : List Item} {term : Terminal} (h : exec i s = .next t)
    (hout : t.out = s.out ++ [.answered items term]) : ResponseSequence s.bb i items term := by
  obtain ⟨t', items', term', ht, hout', hP⟩ := exec_answers (s := s) i
  cases ht.symm.trans h
  obtain ⟨rfl, rfl⟩ : items' = items ∧ term' = term := by simpa using hout'.symm.trans hout
  exact hP

end

/-- `PACK` emits the header byte and one byte for each eight bits begun (R153, R154). -/
theorem packItems_eq_map (bb : Bits) :
    ∃ bytes : List Byte, packItems bb = bytes.map .byte ∧ bytes.length = 1 + (bb.length + 7) / 8 := by
  obtain ⟨-, hmod, hlen⟩ := padding_spec bb.length
  have hpacked := packedBytes_length (bb ++ List.replicate (padding bb.length) false) (by simpa using hmod)
  refine ⟨_ :: _, rfl, ?_⟩
  simp only [List.length_append, List.length_replicate, List.length_cons] at hpacked ⊢
  omega

section
variable {bb : Bits} {i : Instr} {items : List Item} {term : Terminal}

theorem DoneSequence.ne_value (h : DoneSequence items term) (v : Word) : term ≠ .value v := by
  rintro rfl
  obtain ⟨-, h | ⟨c, h⟩⟩ := h <;> cases h

theorem ValueSequence.eq_value (h : ValueSequence items term) (hterm : ∀ c, term ≠ .err c) : ∃ v, term = .value v :=
  h.2.resolve_right fun ⟨c, hc⟩ => hterm c hc

/-- Only `PACK` and `DRUN` emit items. -/
theorem ResponseSequence.emits (h : ResponseSequence bb i items term) (hne : items ≠ []) : i = .pack ∨ i = .drun := by
  cases i with
  | pack => exact .inl rfl
  | drun => exact .inr rfl
  | _ => exact absurd h.1 hne

/-- Without a fault, CSRR, FRD and BGET answer VALUE and no other command does. -/
theorem ResponseSequence.value_iff (h : ResponseSequence bb i items term) (hterm : ∀ c, term ≠ .err c) :
    (∃ v, term = .value v) ↔ (∃ a, i = .csrr a) ∨ (∃ S ch, i = .frd S ch) ∨ ∃ x, i = .bget x := by
  cases i with
  | csrr a => exact iff_of_true (ValueSequence.eq_value h hterm) (.inl ⟨a, rfl⟩)
  | frd S ch => exact iff_of_true (ValueSequence.eq_value h hterm) (.inr (.inl ⟨S, ch, rfl⟩))
  | bget x => exact iff_of_true (ValueSequence.eq_value h hterm) (.inr (.inr ⟨x, rfl⟩))
  | pack =>
    obtain ⟨-, rfl⟩ := h
    exact iff_of_false nofun nofun
  | drun =>
    obtain rfl := h.2.resolve_right fun ⟨c, hc⟩ => hterm c hc
    exact iff_of_false nofun nofun
  | _ => exact iff_of_false (fun ⟨v, hv⟩ => DoneSequence.ne_value h v hv) nofun

end

/-- Settles O19: the reply is the command's row of the response table. -/
theorem responseSequenceOfEachCommand : Obligations.ResponseSequenceOfEachCommand := by
  intro s t i items term ht hout
  have h := exec_responseSequence ht hout
  refine ⟨fun ⟨c, hc⟩ => ?_, fun hterm => ⟨h.value_iff hterm, h.emits, ?_, ?_⟩⟩
  · have hpack : i ≠ .pack := by
      rintro rfl
      exact nomatch hc.symm.trans h.2
    exact ⟨hpack, fun hne => (h.emits hne).resolve_left hpack⟩
  · rintro rfl
    obtain ⟨rfl, -⟩ := h
    exact packItems_eq_map s.bb
  · rintro rfl
    exact h.1

end Sys2Proof.Machine

/-! PROOFS. `DRUN` on at most one bit (R88, R141), and the stray bits of format N (R74). -/

namespace Sys2Proof.Machine

/-- A word of an opcode of format N with a bit set in its argument field selects no command (R72, R74). -/
theorem strayBitsFault_of_formatN {op : BitVec 6} {i : Instr} (hdec : ∀ w, opcode w = op → decode w = formatN w i) :
    StrayBitsFault op 0 26 :=
  fun s w ho hz => runWord_of_error ((hdec w ho).trans (if_neg hz)) s

theorem exec_drun_of_no_codes {s : State} (h : s.codes = false) :
    exec .drun s = raise s .uninitializedCode (encode .drun) :=
  if_pos h

section
variable {s : State} {items : List Item} (hc : s.codes = true)
include hc

/-- The walk ends: DPTR is where it stands, and BB is used up. -/
theorem exec_drun_of_walk {p : Nat} (hw : s.walk s.bb s.dptr = (items, some p)) :
    exec .drun s = complete { s with dptr := p, bb := [] } items .done := by
  simp only [exec, execDrun, hc, hw, Bool.true_eq_false, if_false]

/-- The walk meets the phantom leaf: the items before it are void. -/
theorem exec_drun_of_walk_none (hw : s.walk s.bb s.dptr = (items, none)) :
    exec .drun s = raiseAfter s items .malformedStream (encode .drun) := by
  simp only [exec, execDrun, hc, hw, Bool.true_eq_false, if_false]

theorem exec_drun_of_empty (hbb : s.bb = []) : exec .drun s = complete s [] .done := by
  rw [exec_drun_of_walk hc (hbb ▸ s.walk_nil s.dptr), ← hbb]

end

/-! The walk over one bit: to an internal node, to the phantom leaf, to a real leaf. -/

section
variable {s : State} {b : Bool} {p : Nat}

theorem State.walk_one_internal (hk : (s.node (s.child p b)).k = true) : s.walk [b] p = ([], some (s.child p b)) := by
  rw [State.walk_cons, if_pos hk, State.walk_nil]

theorem State.walk_one_phantom (hk : (s.node (s.child p b)).k = false) (hph : (s.node (s.child p b)).ph = true) :
    s.walk [b] p = ([], none) := by
  rw [State.walk_cons, if_neg (by simp [hk]), if_pos hph]

theorem State.walk_one_leaf (hk : (s.node (s.child p b)).k = false) (hph : (s.node (s.child p b)).ph = false) :
    s.walk [b] p = ([.sym (symword s.cfg s.eolchar (s.node (s.child p b)).sym)], some s.root) := by
  rw [State.walk_cons, if_neg (by simp [hk]), if_neg (by simp [hph]), State.walk_nil]

end

/-- Settles O44, by the kind of the child that the bit selects. -/
theorem drunOnOneBit : Obligations.DrunOnOneBit := by
  refine ⟨rfl, fun s => ⟨exec_drun_of_no_codes, exec_drun_of_empty, fun b hc hbb => ⟨fun hk => ?_, fun hk hph => ?_,
    fun hk hph => ?_⟩⟩, strayBitsFault_of_formatN (i := .drun) fun w ho => ?_⟩
  · exact exec_drun_of_walk hc (hbb ▸ State.walk_one_internal hk)
  · exact exec_drun_of_walk_none hc (hbb ▸ State.walk_one_phantom hk hph)
  · exact exec_drun_of_walk hc (hbb ▸ State.walk_one_leaf hk hph)
  · simp only [decode, ho]

end Sys2Proof.Machine

/-! PROOFS. A word that selects a command runs that command (R90), and a run carries out the presented commands in order
(R94, R214). -/

namespace Sys2Proof.Machine

theorem step_cmd_of_ok {s : State} {w : Word} {rest : List HostEvent} {i : Instr} (hs : s.input = .cmd w :: rest)
    (hw : decode w = .ok i) : step s = exec i { s with input := rest } :=
  (step_cmd hs).trans (runWord_of_ok hw _)

/-- The opcode table's numbering of the bits of a word is the word's own (R55). -/
theorem tableWord_toNat (w : Word) : tableWord 32 w.toNat = w := by
  rw [tableWord, BitVec.toNat_mod_cancel, BitVec.ofNat_toNat, BitVec.setWidth_eq]

/-- Settles O7: the step takes the word, and taking it undoes presenting it. -/
theorem stepRunsDecodedCommand : Obligations.StepRunsDecodedCommand := by
  refine ⟨fun s w rest i hs hw => step_cmd_of_ok hs hw, fun s w i hw => ?_⟩
  have hs : (s.withFetchWord 32 w.toNat).input = .cmd w :: s.input := by
    rw [State.withFetchWord_input, tableWord_toNat]
  exact step_cmd_of_ok hs hw

/-- A run whose first step answers a next state goes on from it. -/
theorem run_succ_of_next {M : Host.Core} {n : Nat} {s t : M.State} (h : M.step s = .next t) :
    M.run (n + 1) s = M.run n t := by
  rw [Host.Core.run, h]

theorem run_core_succ_of_step {n : Nat} {s t : State} (h : step s = .next t) :
    Host.Core.run core (n + 1) s = Host.Core.run core n t :=
  run_succ_of_next (M := core) h

theorem execAll_cons_of_next {i : Instr} {is : List Instr} {s t : State} (h : exec i s = .next t) :
    execAll (i :: is) s = execAll is t := by
  rw [execAll, h]

/-- What the host presents is the same after a command as before it. -/
theorem exec_withInput_of_next {i : Instr} {s t : State} (h : exec i s = .next t) (l : List HostEvent) :
    exec i { s with input := l } = .next { t with input := l } := by
  rw [exec_withInput, h]
  rfl

/-- A command that is presented is taken and carried out, and what is presented after it still is (R90). -/
theorem step_cmd_encode_of_next {i : Instr} {s t : State} (h : exec i s = .next t) (others : List HostEvent) :
    step { s with input := .cmd (encode i) :: others } = .next { t with input := others } := by
  rw [step_cmd_of_ok rfl (encodedCommandDecodesToItself i)]
  exact exec_withInput_of_next h others

/-- Settles O13, by induction on the commands: the first leaves the same state whether or not the others are presented
after it. -/
theorem runIsTheFoldOfItsCommands : Obligations.RunIsTheFoldOfItsCommands := by
  intro is
  induction is with
  | nil => exact fun _ _ => rfl
  | cons i is ih =>
    intro s rest
    obtain ⟨t, ht, -⟩ := exec_next i s
    rw [execAll_cons_of_next (exec_withInput_of_next ht rest)]
    exact (run_core_succ_of_step (step_cmd_encode_of_next ht _)).trans (ih t rest)

end Sys2Proof.Machine

/-! PROOFS. The frequency counter (R100 to R102), and the stray bits of format S (R74). -/

namespace Sys2Proof.Machine

/-- A word of an opcode of format S with a bit set in its zero field selects no command (R72, R74). -/
theorem strayBitsFault_of_formatS {op : BitVec 6} {mk : Bool → BitVec 21 → Instr}
    (hdec : ∀ w, opcode w = op → decode w = formatS w mk) : StrayBitsFault op 22 4 :=
  fun s w ho hz => runWord_of_error ((hdec w ho).trans (if_neg hz)) s

/-- Settles O28: an empty store reads 0 everywhere. -/
theorem fclrClearsEveryCount : Obligations.FclrClearsEveryCount := by
  refine ⟨rfl, fun s => ⟨_, rfl, fun id => ?_, rfl⟩, strayBitsFault_of_formatN (i := .fclr) fun w ho => ?_⟩
  · exact Store.get_nil 0 id
  · simp only [decode, ho]

section
variable {s : State} {S : Bool} {char : BitVec 21} {id : Nat} (hid : symid s.cfg S char = some id)
include hid

theorem exec_fsym_of_ne_max (hne : s.count id ≠ s.cfg.cntMax) :
    exec (.fsym S char) s = complete { s with ft := Store.set 0 s.ft id (s.count id + 1) } [] .done := by
  simp only [exec, execFsym, hid, if_neg hne]

/-- The count is at its greatest value and keeps it (R101). -/
theorem exec_fsym_of_max (heq : s.count id = s.cfg.cntMax) :
    exec (.fsym S char) s = raise s .capacityExceeded (encode (.fsym S char)) := by
  simp only [exec, execFsym, hid, if_pos heq]

theorem exec_frd_of_symbol :
    exec (.frd S char) s = complete s [] (.value (BitVec.ofNat 32 (s.count id))) :=
  exec_read_of_some (.inr (.inl ⟨S, char, rfl⟩)) (congrArg (Option.map _) hid)

end

/-- Settles O29, by the arms of `FSYM`: the one entry written reads its new value, which is not 0, and every other entry
reads as before. -/
theorem fsymCountsOneOccurrence : Obligations.FsymCountsOneOccurrence := by
  refine ⟨wordS_toNat 0x09#6, fun s S char => ⟨fun id hid hne => ?_, fun id hid heq => ?_, fun hnone => ?_⟩,
    strayBitsFault_of_formatS (mk := .fsym) fun w ho => ?_⟩
  · refine ⟨_, exec_fsym_of_ne_max hid hne, ?_, fun j hj => ?_, rfl⟩
    · exact Store.get_set_self (.inl (Nat.succ_ne_zero _))
    · exact Store.get_set_ne hj
  · exact exec_fsym_of_max hid heq
  · exact exec_of_no_symbol hnone (.inl rfl)
  · simp only [decode, ho]

/-- Settles O30: `FRD` is a read, by whether its operand names a symbol. -/
theorem frdReadsTheCount : Obligations.FrdReadsTheCount := by
  refine ⟨wordS_toNat 0x0A#6, fun s S char => ⟨fun id hid => ?_, fun hnone => ?_⟩,
    strayBitsFault_of_formatS (mk := .frd) fun w ho => ?_⟩
  · exact exec_frd_of_symbol hid
  · exact exec_of_no_symbol hnone (.inr (.inl rfl))
  · simp only [decode, ho]

end Sys2Proof.Machine

/-! PROOFS. The tree that `BUILD` makes and the codes it derives (R111 to R116, R119), and `DERIVE` (R121). -/

namespace Sys2Proof.Machine

/-- A symbol that occurs is in the list of present symbols, so `BUILD` has something to build (R111). -/
theorem present_ne_nil {s : State} {id : Nat} (hid : id < 2 ^ s.cfg.symW + 1) (hcount : 1 ≤ s.count id) :
    present s.cfg s.ft ≠ [] :=
  List.ne_nil_of_mem (mem_present.2 ⟨hid, hcount⟩)

/-- Settles O32: a symbol is present, and `State.withTree` is all that `BUILD` writes. -/
theorem buildCompletesOnAnyPresentSymbol : Obligations.BuildCompletesOnAnyPresentSymbol := by
  refine ⟨rfl, fun s id hid hcount => ?_, strayBitsFault_of_formatN (i := .build) fun w ho => ?_⟩
  · exact ⟨_, exec_build_of_present (present_ne_nil hid hcount), rfl⟩
  · simp only [decode, ho]

/-- Node `j` of a built tree is the leaf of the `j`-th symbol (R112). -/
theorem BuiltTree.node_of_symbol {ft : Store Nat} {ids : List Nat} {nm : List Node} {root : Nat}
    (h : BuiltTree (leaves ft ids) nm root) {j : Nat} (hj : j < ids.length) : nodeAt nm j = realLeaf ft ids[j] := by
  have hlt : j < (leaves ft ids).length := by
    rw [leaves, List.length_append, List.length_map]
    exact Nat.lt_add_right _ hj
  rw [h.leafAt hlt, leaves_getElem hj hlt]

/-- Settles O33: the leaves come first in NM, in the order of the present symbols, and the real leaves are theirs. -/
theorem buildMakesLeavesInSymbolOrder : Obligations.BuildMakesLeavesInSymbolOrder := by
  intro s t h hout ids
  obtain ⟨hp, rfl⟩ := exec_build_done h hout
  have hb := construct_built s.ft hp
  refine ⟨rfl, fun j hj => hb.node_of_symbol hj, fun i hle hlt hleaf => ?_⟩
  obtain ⟨hk, hph⟩ := hleaf
  obtain ⟨hi, -⟩ := (isLeafOf_iff hb hlt).1 ⟨hk, hph, rfl⟩
  exact absurd hi (Nat.not_lt.2 hle)

/-- Settles O35: `MergedAt`, which the merge loop keeps, is the statement, and the leaves number `max NLEAF 2`. -/
theorem buildMergesTheTwoLeast : Obligations.BuildMergesTheTwoLeast := by
  intro s t h hout n hle hlt
  obtain ⟨hp, rfl⟩ := exec_build_done h hout
  have hm := (construct_built s.ft hp).merged n ((leaves_length s.ft hp).trans_le hle) hlt
  exact ⟨hm.node, hm.left, hm.first, hm.right, hm.ne, hm.second⟩

/-- Settles O36: the queue of a built tree holds its last node, and NM lists no entry past it. -/
theorem buildRootIsTheLastNode : Obligations.BuildRootIsTheLastNode := by
  intro s t h hout
  obtain ⟨hp, rfl⟩ := exec_build_done h hout
  have hb := construct_built s.ft hp
  refine ⟨?_, hb.last, hb.queued, fun i hi => nodeAt_of_ge hi⟩
  exact hb.length.trans (by rw [leaves_length s.ft hp]; rfl)

/-- Settles O37: no two leaves bear one symbol, so a symbol's path is the one its leaf has. -/
theorem buildCodesAreLeafPaths : Obligations.BuildCodesAreLeafPaths := by
  intro s t h hout id p hne
  obtain ⟨hp, rfl⟩ := exec_build_done h hout
  have hb := construct_built s.ft hp
  exact hb.derive_iff (leavesDistinct hb (present_nodup s.cfg s.ft)) hne

/-! The tree of a table with one symbol (R113). -/

/-- The real leaf of a symbol of count `w`, the phantom leaf, and the root over the phantom and the real leaf (R113). -/
def oneSymbolTree (w id : Nat) : Built :=
  { nm := [⟨false, false, w, id, 0, 0⟩, phantomLeaf, ⟨true, false, w, 0, 1, 0⟩], nleaf := 1, nnode := 3, root := 2 }

/-- The phantom weighs 0, so it is popped before the real leaf (R113, R116). -/
theorem popmin_phantom {ft : Store Nat} {id : Nat} (h : 1 ≤ Store.get 0 ft id) :
    popmin (leaves ft [id]) [0, 1] = some (1, [0]) := by
  have hbefore : before (leaves ft [id]) 0 1 = false := by
    refine decide_eq_false ?_
    change ¬ (Store.get 0 ft id < 0 ∨ (Store.get 0 ft id = 0 ∧ 0 < 1))
    omega
  simp [popmin, least, hbefore]

/-- The one pass of the merge loop makes the phantom the left child (R113, R114). -/
theorem construct_singleton {ft : Store Nat} {id : Nat} (h : 1 ≤ Store.get 0 ft id) :
    construct ft [id] = oneSymbolTree (Store.get 0 ft id) id := by
  have hmerge : merge 1 (leaves ft [id]) [0, 1] = ((oneSymbolTree (Store.get 0 ft id) id).nm, [2]) := by
    have hroot : internalNode (leaves ft [id]) 1 0 = ⟨true, false, Store.get 0 ft id, 0, 1, 0⟩ :=
      congrArg (Node.mk true false · 0 1 0) (Nat.zero_add _)
    calc merge 1 (leaves ft [id]) [0, 1]
        = (leaves ft [id] ++ [internalNode (leaves ft [id]) 1 0], [2]) := by rw [merge, popmin_phantom h]; rfl
      _ = ((oneSymbolTree (Store.get 0 ft id) id).nm, [2]) := by rw [hroot]; rfl
  change Built.mk (merge 1 (leaves ft [id]) [0, 1]).1 1 (merge 1 (leaves ft [id]) [0, 1]).1.length
    ((merge 1 (leaves ft [id]) [0, 1]).2.headD 0) = _
  rw [hmerge]
  rfl

theorem derive_oneSymbolTree (w id : Nat) :
    derive (oneSymbolTree w id).nm (oneSymbolTree w id).root = [(id, [true])] :=
  rfl

theorem present_eq_singleton {s : State} {id : Nat} (hid : id < 2 ^ s.cfg.symW + 1) (hcount : 1 ≤ s.count id)
    (hothers : ∀ j, j < 2 ^ s.cfg.symW + 1 → j ≠ id → s.count j = 0) : present s.cfg s.ft = [id] := by
  refine List.perm_singleton.1 ((List.perm_ext_iff_of_nodup (present_nodup _ _) (List.nodup_singleton id)).2 fun j => ?_)
  rw [mem_present, List.mem_singleton]
  constructor
  · rintro ⟨hj, hjcount⟩
    by_contra hne
    exact absurd (hothers j hj hne) (Nat.one_le_iff_ne_zero.1 hjcount)
  · rintro rfl
    exact ⟨hid, hcount⟩

/-- `BUILD` of a table with one symbol (R113). -/
theorem exec_build_of_one_symbol {s : State} {id : Nat} (hid : id < 2 ^ s.cfg.symW + 1) (hcount : 1 ≤ s.count id)
    (hothers : ∀ j, j < 2 ^ s.cfg.symW + 1 → j ≠ id → s.count j = 0) :
    exec .build s = complete (s.withTree (oneSymbolTree (s.count id) id)) [] .done := by
  rw [exec_build_of_present (present_ne_nil hid hcount), present_eq_singleton hid hcount hothers,
    construct_singleton hcount]
  rfl

/-- Settles O34: the tree is `oneSymbolTree`, whose root has the phantom on the left. -/
theorem buildOneSymbolTree : Obligations.BuildOneSymbolTree := by
  intro s id hid hcount hothers
  refine ⟨_, exec_build_of_one_symbol hid hcount hothers, rfl, rfl, rfl, rfl, rfl, rfl, rfl, ?_, fun j hj => ?_, ?_⟩
  · simp [State.code, derive_oneSymbolTree, Store.get]
  · simp [State.code, derive_oneSymbolTree, Store.get, hj.symm]
  · exact exec_drun_of_walk_none rfl (State.walk_one_phantom rfl rfl)

/-! `DERIVE` (R121). -/

theorem exec_derive_of_tree {s : State} (h : s.tree = true) :
    exec .derive s = complete { s with ct := derive s.nm s.root, codes := true } [] .done :=
  if_pos h

theorem exec_derive_of_no_tree {s : State} (h : s.tree = false) :
    exec .derive s = raise s .uninitializedCode (encode .derive) :=
  if_neg (by simp [h])

/-- Settles O42, by TREE: without a tree `DERIVE` faults, and with one it writes what `derive` makes of it. -/
theorem deriveRederivesTheSameCodes : Obligations.DeriveRederivesTheSameCodes := by
  refine ⟨rfl, fun s => ⟨exec_derive_of_no_tree, fun ht => ⟨_, exec_derive_of_tree ht, rfl, rfl, fun h => ?_⟩⟩,
    strayBitsFault_of_formatN (i := .derive) fun w ho => ?_⟩
  · rw [h.rederived ht]
    rfl
  · simp only [decode, ho]

end Sys2Proof.Machine

/-! PROOFS. `DRUN` on a built tree (R120, R141, R184): where no phantom leaf is met, the walk ends at an internal node. -/

namespace Sys2Proof.Machine

/-- In a tree without a phantom leaf the walk goes from internal node to internal node (R141). -/
theorem State.walk_of_no_phantom {s : State} (hroot : (s.node s.root).k = true)
    (hph : ∀ i, (s.node i).k = false → (s.node i).ph = false) (bits : Bits) {p : Nat} (hp : (s.node p).k = true) :
    ∃ items q, s.walk bits p = (items, some q) ∧ (s.node q).k = true := by
  induction bits generalizing p with
  | nil => exact ⟨[], p, rfl, hp⟩
  | cons b bits ih =>
    rw [State.walk_cons]
    cases hk : (s.node (s.child p b)).k with
    | true => exact ih hk
    | false =>
      obtain ⟨items, q, hw, hq⟩ := ih hroot
      rw [hph _ hk, hw]
      exact ⟨_, q, rfl, hq⟩

/-- Where every bit leads from the root to a real leaf, the walk emits one item a bit and is back at the root (R141). -/
theorem State.walk_of_leaf_children {s : State} {bits : Bits}
    (hleaf : ∀ b ∈ bits, (s.node (s.child s.root b)).k = false ∧ (s.node (s.child s.root b)).ph = false) :
    ∃ items, s.walk bits s.root = (items, some s.root) ∧ items.length = bits.length := by
  induction bits with
  | nil => exact ⟨[], rfl, rfl⟩
  | cons b bits ih =>
    obtain ⟨hb, hbits⟩ := List.forall_mem_cons.1 hleaf
    obtain ⟨hk, hph⟩ := hb
    obtain ⟨items, hw, hlen⟩ := ih hbits
    rw [State.walk_cons, hk, hph, hw]
    exact ⟨_, rfl, congrArg (· + 1) hlen⟩

/-- With two or more real leaves the tree has no phantom leaf (R113, R120). -/
theorem CoreInv.no_phantom {s : State} (h : CoreInv s) (ht : s.tree = true) (hleaves : 2 ≤ s.nleaf) {i : Nat}
    (hk : (s.node i).k = false) : (s.node i).ph = false := by
  obtain ⟨ft, -, -, hnleaf, -, hb⟩ := h.tree_built ht
  by_contra hph
  obtain ⟨hone, -⟩ := phantom_only hb hk (Bool.eq_true_of_not_eq_false hph)
  omega

/-- With one real leaf the tree is the one-symbol tree (R113). -/
theorem CoreInv.one_leaf {s : State} (h : CoreInv s) (ht : s.tree = true) (hleaf : s.nleaf = 1) :
    ∃ w id, oneSymbolTree w id = { nm := s.nm, nleaf := s.nleaf, nnode := s.nnode, root := s.root } := by
  obtain ⟨ft, -, -, hc⟩ := h.built ht
  obtain ⟨id, hid⟩ := List.length_eq_one_iff.1 ((congrArg Built.nleaf hc).trans hleaf)
  have hcount : 1 ≤ Store.get 0 ft id := (mem_present.1 (hid ▸ List.mem_singleton_self id)).2
  exact ⟨_, id, by rw [← hc, hid, construct_singleton hcount]⟩

/-- The walk pointer of a tree with one real leaf stands on its one internal node, the root (R49 item 7). -/
theorem CoreInv.dptr_of_one_leaf {s : State} (h : CoreInv s) (ht : s.tree = true) (hleaf : s.nleaf = 1) :
    s.dptr = s.root := by
  obtain ⟨ft, -, hne, hnleaf, -, hb⟩ := h.tree_built ht
  obtain ⟨hle, hlt⟩ := hb.internal_iff.1 (h.dptrOk ht).2
  have := leaves_length ft hne
  have := hb.length
  have := hb.last
  omega

/-- In a tree with one real leaf a 1 leads from the root to it (R113). -/
theorem CoreInv.right_of_one_leaf {s : State} (h : CoreInv s) (ht : s.tree = true) (hleaf : s.nleaf = 1) :
    (s.node (s.child s.root true)).k = false ∧ (s.node (s.child s.root true)).ph = false := by
  obtain ⟨w, id, hc⟩ := h.one_leaf ht hleaf
  injection hc with hnm _ _ hroot
  rw [State.child, State.node, State.node, ← hnm, ← hroot]
  exact ⟨rfl, rfl⟩

/-- The walk over any bits with two or more real leaves, and over ones with one (R141, R184). -/
theorem CoreInv.walk_ends {s : State} (h : CoreInv s) (ht : s.tree = true)
    (hbits : 2 ≤ s.nleaf ∨ ∀ b ∈ s.bb, b = true) :
    ∃ items q, s.walk s.bb s.dptr = (items, some q) ∧ (s.node q).k = true ∧
      (s.nleaf = 1 → items.length = s.bb.length ∧ q = s.root) := by
  obtain ⟨_, -, -, -, -, hb⟩ := h.tree_built ht
  by_cases hone : s.nleaf = 1
  · have hones : ∀ b ∈ s.bb, b = true := hbits.resolve_left (by omega)
    obtain ⟨items, hw, hlen⟩ := State.walk_of_leaf_children (s := s) (bits := s.bb)
      fun b hmem => hones b hmem ▸ h.right_of_one_leaf ht hone
    exact ⟨items, s.root, h.dptr_of_one_leaf ht hone ▸ hw, hb.root_internal, fun _ => ⟨hlen, rfl⟩⟩
  · have htwo : 2 ≤ s.nleaf := by
      obtain ⟨hpos, -⟩ := h.tree_sizes ht
      omega
    obtain ⟨items, q, hw, hq⟩ :=
      State.walk_of_no_phantom hb.root_internal (fun _ => h.no_phantom ht htwo) s.bb (h.dptrOk ht).2
    exact ⟨items, q, hw, hq, fun hc => absurd hc hone⟩

/-- Settles O46: the walk ends at an internal node, and an internal node is listed in NM. -/
theorem drunCompletesOnBuiltTrees : Obligations.DrunCompletesOnBuiltTrees := by
  intro s h ht hbits
  obtain ⟨_, -, -, -, hnnode, -⟩ := h.tree_built ht
  obtain ⟨items, q, hw, hq, hone⟩ := h.walk_ends ht hbits
  exact ⟨_, items, exec_drun_of_walk (h.flagsOk ▸ ht) hw, rfl, hnnode ▸ lt_length_of_k hq, hq, hone⟩

end Sys2Proof.Machine

/-! PROOFS. The encoder `ESYM` (R131), a lemma for each fault in the order of R187. -/

namespace Sys2Proof.Machine

/-! Appending to BB (R92 row 6), by whether the bits fit. -/

theorem State.append_of_le {s : State} {bits : Bits} (h : s.bb.length + bits.length ≤ s.cfg.bbCap) :
    s.append bits = some { s with bb := s.bb ++ bits } :=
  if_neg h.not_gt

theorem State.append_of_gt {s : State} {bits : Bits} (h : s.cfg.bbCap < s.bb.length + bits.length) :
    s.append bits = none :=
  if_pos h

section
variable {s : State} {S : Bool} {char : BitVec 21} {id : Nat} (hid : symid s.cfg S char = some id)
include hid

theorem exec_esym_of_no_codes (hc : s.codes = false) :
    exec (.esym S char) s = raise s .uninitializedCode (encode (.esym S char)) := by
  simp only [exec, execEsym, hid, if_pos hc]

variable (hc : s.codes = true)
include hc

/-- No default code is substituted for a symbol without one (R131). -/
theorem exec_esym_of_no_code (hcode : s.code id = []) :
    exec (.esym S char) s = raise s .unknownSymbol (encode (.esym S char)) := by
  simp only [exec, execEsym, hid, hc, Bool.true_eq_false, if_false, hcode, List.length_nil, if_true]

/-- With a code, the outcome is that of appending it to BB. -/
theorem exec_esym_of_code (hcode : s.code id ≠ []) :
    exec (.esym S char) s =
      (s.append (s.code id)).elim (raise s .capacityExceeded (encode (.esym S char))) (complete · [] .done) := by
  have hlen : (s.code id).length ≠ 0 := mt List.length_eq_zero_iff.1 hcode
  simp only [exec, execEsym, hid, hc, Bool.true_eq_false, if_false, hlen]
  cases s.append (s.code id) <;> rfl

/-- No part of a code that does not fit is appended (R131). -/
theorem exec_esym_of_full (hcode : s.code id ≠ []) (hgt : s.cfg.bbCap < s.bb.length + (s.code id).length) :
    exec (.esym S char) s = raise s .capacityExceeded (encode (.esym S char)) := by
  rw [exec_esym_of_code hid hc hcode, State.append_of_gt hgt, Option.elim_none]

theorem exec_esym_of_fits (hcode : s.code id ≠ []) (hle : s.bb.length + (s.code id).length ≤ s.cfg.bbCap) :
    exec (.esym S char) s = complete { s with bb := s.bb ++ s.code id } [] .done := by
  rw [exec_esym_of_code hid hc hcode, State.append_of_le hle, Option.elim_some]

end

/-- Settles O43, by the arms of `ESYM`. -/
theorem esymAppendsTheCode : Obligations.EsymAppendsTheCode := by
  refine ⟨wordS_toNat 0x18#6, fun s S char => ⟨fun hnone => ?_, fun id hid => ⟨fun hc => ?_, fun hc hcode => ?_,
    fun hc hcode hgt => ?_, fun hc hcode hle => ?_⟩⟩, strayBitsFault_of_formatS (mk := .esym) fun w ho => ?_⟩
  · exact exec_of_no_symbol hnone (.inr (.inr rfl))
  · exact exec_esym_of_no_codes hid hc
  · exact exec_esym_of_no_code hid hc hcode
  · exact exec_esym_of_full hid hc hcode hgt
  · exact exec_esym_of_fits hid hc hcode hle
  · simp only [decode, ho]

end Sys2Proof.Machine

/-! PROOFS. `DRUN` over a bitstring in two pieces (R140, R141), and the end check `DEND` (R143). -/

namespace Sys2Proof.Machine

/-! `DEND` (R143). -/

theorem exec_dend_of_no_codes {s : State} (hc : s.codes = false) :
    exec .dend s = raise s .uninitializedCode (encode .dend) :=
  if_pos hc

section
variable {s : State} (hc : s.codes = true)
include hc

/-- The input ends inside a code word. -/
theorem exec_dend_of_dptr_ne (hp : s.dptr ≠ s.root) : exec .dend s = raise s .malformedStream (encode .dend) := by
  simp only [exec, execDend, hc, Bool.true_eq_false, if_false, if_pos hp]

theorem exec_dend_of_dptr_eq (hp : s.dptr = s.root) : exec .dend s = complete s [] .done := by
  simp only [exec, execDend, hc, Bool.true_eq_false, if_false, hp, ne_eq, not_true]

end

/-- Settles O47, by the arms of `DEND`. -/
theorem dendChecksTheWalkPointer : Obligations.DendChecksTheWalkPointer := by
  refine ⟨rfl, fun s => ⟨fun hc => ?_, fun hc hp => ?_, fun hc hp => ?_⟩,
    strayBitsFault_of_formatN (i := .dend) fun w ho => ?_⟩
  · exact exec_dend_of_no_codes hc
  · exact exec_dend_of_dptr_ne hc hp
  · exact exec_dend_of_dptr_eq hc hp
  · simp only [decode, ho]

/-! `DRUN` presented with some bits and a walk pointer (R140): its answer and the walk over those bits say the same. -/

/-- The walk reads neither BB nor DPTR. -/
theorem State.walk_withBits (s : State) (bb : Bits) (dptr : Nat) (bits : Bits) (p : Nat) :
    State.walk { s with bb := bb, dptr := dptr } bits p = s.walk bits p :=
  State.walk_congr (s := { s with bb := bb, dptr := dptr }) (t := s) rfl rfl rfl rfl bits p

/-- The last reply of two equal histories is one reply. -/
theorem answered_inj_of_out_eq {out : List Reply} {items items' : List Item} {term term' : Terminal}
    (h : out ++ [.answered items term] = out ++ [.answered items' term']) : items = items' ∧ term = term' :=
  Reply.answered.inj (List.singleton_inj.1 (List.append_cancel_left h))

section
variable {s t : State} {bits : Bits} {p : Nat} {items : List Item} (hc : s.codes = true)
include hc

theorem exec_drun_withBits_of_walk {q : Nat} (hw : s.walk bits p = (items, some q)) :
    exec .drun { s with bb := bits, dptr := p } = complete { s with bb := [], dptr := q } items .done :=
  exec_drun_of_walk (s := { s with bb := bits, dptr := p }) hc
    ((s.walk_withBits bits p bits p).trans hw)

theorem exec_drun_withBits_of_walk_none (hw : s.walk bits p = (items, none)) :
    exec .drun { s with bb := bits, dptr := p } =
      raiseAfter { s with bb := bits, dptr := p } items .malformedStream (encode .drun) :=
  exec_drun_of_walk_none (s := { s with bb := bits, dptr := p }) hc
    ((s.walk_withBits bits p bits p).trans hw)

variable (h : exec .drun { s with bb := bits, dptr := p } = .next t)
include h

/-- What `DRUN` with codes can answer: the walk ends and DPTR is where it stands, or it meets a phantom leaf (R141). -/
theorem exec_drun_withBits_cases :
    (∃ items, s.walk bits p = (items, some t.dptr) ∧ t.out = s.out ++ [.answered items .done]) ∨
    (∃ items, s.walk bits p = (items, none) ∧ t.out = s.out ++ [.answered items (.err .malformedStream)]) := by
  rcases hw : s.walk bits p with ⟨items, _ | q⟩
  · rw [exec_drun_withBits_of_walk_none hc hw] at h
    obtain rfl := Host.Outcome.next.inj h
    exact .inr ⟨items, rfl, rfl⟩
  · rw [exec_drun_withBits_of_walk hc hw] at h
    obtain rfl := Host.Outcome.next.inj h
    exact .inl ⟨items, rfl, rfl⟩

theorem walk_of_drun_done (hout : t.out = s.out ++ [.answered items .done]) :
    s.walk bits p = (items, some t.dptr) := by
  obtain ⟨emitted, hw, ho⟩ | ⟨_, -, ho⟩ := exec_drun_withBits_cases hc h
  · obtain ⟨rfl, -⟩ := answered_inj_of_out_eq (ho.symm.trans hout)
    exact hw
  · cases terminal_eq_of_out_eq (ho.symm.trans hout)

theorem walk_of_drun_err {c : Cause} (hout : t.out = s.out ++ [.answered items (.err c)]) :
    s.walk bits p = (items, none) ∧ c = .malformedStream := by
  obtain ⟨_, -, ho⟩ | ⟨emitted, hw, ho⟩ := exec_drun_withBits_cases hc h
  · cases terminal_eq_of_out_eq (ho.symm.trans hout)
  · obtain ⟨rfl, hterm⟩ := answered_inj_of_out_eq (ho.symm.trans hout)
    exact ⟨hw, (Terminal.err.inj hterm).symm⟩

end

/-- Settles O45: the replies tell how the walks over the pieces end, and `State.walk_append` puts the walks together. -/
theorem drunInPieces : Obligations.DrunInPieces := by
  intro s t1 b1 b2 items1 hc h1
  refine ⟨fun c hout => ?_, fun hout1 t2 items2 h2 => ⟨fun c hout2 => ?_, fun hout2 => ?_⟩⟩
  · obtain ⟨hw, rfl⟩ := walk_of_drun_err hc h1 hout
    exact exec_drun_withBits_of_walk_none hc (by simp only [State.walk_append, hw])
  · have hw1 := walk_of_drun_done hc h1 hout1
    obtain ⟨hw2, rfl⟩ := walk_of_drun_err hc h2 hout2
    exact exec_drun_withBits_of_walk_none hc (by simp only [State.walk_append, hw1, hw2])
  · have hw1 := walk_of_drun_done hc h1 hout1
    have hw2 := walk_of_drun_done hc h2 hout2
    exact exec_drun_withBits_of_walk hc (by simp only [State.walk_append, hw1, hw2])

end Sys2Proof.Machine

/-! PROOFS. The round trip (R144, R145): the walk over the codes of some symbols emits those symbols. -/

namespace Sys2Proof.Machine

theorem execAll_append_of_next {is js : List Instr} {s t : State} (h : execAll is s = .next t) :
    execAll (is ++ js) s = execAll js t := by
  induction is generalizing s with
  | nil => rw [← Host.Outcome.next.inj h, List.nil_append]
  | cons i is ih =>
    obtain ⟨u, hu, -⟩ := exec_next i s
    rw [execAll_cons_of_next hu] at h
    rw [List.cons_append, execAll_cons_of_next hu]
    exact ih h

/-- The state after an `ESYM` of each of some symbols: BB has gained their codes (R131). -/
def State.encoded (s : State) (ids : List Nat) : State :=
  { s with bb := s.bb ++ ids.flatMap s.code, cmdseq := s.cmdseq + BitVec.ofNat 32 ids.length,
           out := s.out ++ List.replicate ids.length (.answered [] .done) }

theorem State.encoded_nil (s : State) : s.encoded [] = s := by
  simp [State.encoded]

theorem State.encoded_cons (s : State) (id : Nat) (ids : List Nat) :
    (State.answer { s with bb := s.bb ++ s.code id } [] .done).encoded ids = s.encoded (id :: ids) := by
  have hcode : (State.answer { s with bb := s.bb ++ s.code id } [] .done).code = s.code := rfl
  have hseq : s.cmdseq + BitVec.ofNat 32 (ids.length + 1) = s.cmdseq + 1#32 + BitVec.ofNat 32 ids.length := by
    rw [BitVec.ofNat_add, BitVec.add_comm (BitVec.ofNat 32 ids.length), BitVec.add_assoc]
  simp [State.encoded, hcode, hseq, List.replicate_succ]

/-- Encoding: each `ESYM` finds a code and room for it (R131). -/
theorem execAll_esym {s : State} {syms : List (Bool × BitVec 21)} {ids : List Nat} (hc : s.codes = true)
    (hids : syms.map (fun x => symid s.cfg x.1 x.2) = ids.map some) (hcode : ∀ id ∈ ids, s.code id ≠ [])
    (hfit : s.bb.length + (ids.map fun id => (s.code id).length).sum ≤ s.cfg.bbCap) :
    execAll (syms.map fun x => .esym x.1 x.2) s = .next (s.encoded ids) := by
  induction syms generalizing s ids with
  | nil =>
    obtain rfl := List.map_eq_nil_iff.1 hids.symm
    rw [State.encoded_nil]
    rfl
  | cons x syms ih =>
    obtain ⟨id, ids, rfl, hid, hrest⟩ := List.map_eq_cons_iff.1 hids.symm
    obtain ⟨hne, hcode⟩ := List.forall_mem_cons.1 hcode
    rw [List.map_cons, List.sum_cons, ← Nat.add_assoc] at hfit
    have hexec := exec_esym_of_fits hid.symm hc hne ((Nat.le_add_right _ _).trans hfit)
    rw [List.map_cons, execAll_cons_of_next hexec, ← State.encoded_cons]
    exact ih hc hrest.symm hcode (by rw [State.answer_bb, List.length_append]; exact hfit)

/-- While TREE = 1 a symbol's code leads from the root to the symbol's leaf (R119, R144). -/
theorem CoreInv.follow_code {s : State} (h : CoreInv s) (ht : s.tree = true) {id : Nat} (hne : s.code id ≠ []) :
    ∃ j, follow s.nm s.root (s.code id) = some j ∧ IsLeafOf s.nm j id := by
  obtain ⟨_, -, -, -, -, hb⟩ := h.tree_built ht
  rw [State.code, h.derived ht] at hne ⊢
  obtain ⟨j, hj, hleaf, -⟩ | ⟨-, hnil⟩ := hb.derive_cases id
  · exact ⟨j, hj, hleaf⟩
  · exact absurd hnil hne

/-- Decoding: each code takes the walk from the root to its symbol's leaf and back (R141, R145). -/
theorem CoreInv.walk_codes {s : State} (h : CoreInv s) (ht : s.tree = true) {ids : List Nat}
    (hcode : ∀ id ∈ ids, s.code id ≠ []) :
    s.walk (ids.flatMap s.code) s.root = (ids.map fun id => .sym (symword s.cfg s.eolchar id), some s.root) := by
  induction ids with
  | nil => rfl
  | cons id ids ih =>
    obtain ⟨hne, hcode⟩ := List.forall_mem_cons.1 hcode
    obtain ⟨j, hj, hk, hph, hsym⟩ := h.follow_code ht hne
    rw [List.flatMap_cons, State.walk_follow hne hj hk hph, ih hcode, State.node, hsym, List.map_cons]

/-- `DRUN` and `DEND` after it, where the walk over BB ends at the root (R80). -/
theorem execAll_decode {s : State} {items : List Item} (hc : s.codes = true)
    (hw : s.walk s.bb s.dptr = (items, some s.root)) :
    ∃ t, execAll Pseudo.decode.expand s = .next t ∧
      t.out = s.out ++ [.answered items .done, .answered [] .done] ∧ t.bb = [] ∧ t.dptr = s.root := by
  have hdend := exec_dend_of_dptr_eq (s := State.answer { s with dptr := s.root, bb := [] } items .done) hc rfl
  refine ⟨_, (execAll_cons_of_next (exec_drun_of_walk hc hw)).trans (execAll_cons_of_next hdend), ?_, rfl, rfl⟩
  simp

/-- Settles O56: BB holds the codes of the symbols, and the walk over them emits the symbols. -/
theorem decodeOfEncodeRecoversSymbols : Obligations.DecodeOfEncodeRecoversSymbols := by
  intro s syms ids h ht hdptr hbb hids hcode hfit
  have hc : s.codes = true := h.flagsOk ▸ ht
  have henc := execAll_esym hc hids hcode (by rw [hbb, List.length_nil, Nat.zero_add]; exact hfit)
  have hbits : (s.encoded ids).bb = ids.flatMap s.code := by rw [State.encoded, hbb, List.nil_append]
  have hw : (s.encoded ids).walk (s.encoded ids).bb (s.encoded ids).dptr =
      (ids.map fun id => .sym (symword s.cfg s.eolchar id), some s.root) := by
    rw [hbits, ← h.walk_codes ht hcode, ← hdptr]
    exact State.walk_congr (s := s.encoded ids) (t := s) rfl rfl rfl rfl _ _
  rw [execAll_append_of_next henc]
  exact execAll_decode (s := s.encoded ids) hc hw

end Sys2Proof.Machine

/-! PROOFS. The bit buffer's own commands `BCLR`, `BPUT` and `BGET` (R150 to R152), and the stray bits of formats L and B
(R74). -/

namespace Sys2Proof.Machine

/-- A word of an opcode of format L with a bit set in its zero field selects no command (R72, R74). -/
theorem strayBitsFault_of_formatL {op : BitVec 6} {mk : BitVec 5 → BitVec 16 → Instr}
    (hdec : ∀ w, opcode w = op → decode w = formatL w mk) : StrayBitsFault op 21 5 :=
  fun s w ho hz => runWord_of_error ((hdec w ho).trans (if_neg hz)) s

/-- A word of an opcode of format B with a bit set in its zero field selects no command (R72, R74). -/
theorem strayBitsFault_of_formatB {op : BitVec 6} {mk : Byte → Instr}
    (hdec : ∀ w, opcode w = op → decode w = formatB w mk) : StrayBitsFault op 8 18 :=
  fun s w ho hz => runWord_of_error ((hdec w ho).trans (if_neg hz)) s

/-- Settles O48: `BCLR` has no fault of its own, so its meaning is one update of the state. -/
theorem bclrReturnsToIdle : Obligations.BclrReturnsToIdle := by
  refine ⟨rfl, fun s => rfl, strayBitsFault_of_formatN (i := .bclr) fun w ho => ?_⟩
  simp only [decode, ho]

/-! `BPUT` (R151). -/

section
variable {n : BitVec 5} {bits : BitVec 16}

theorem literal_of_legal (hn : n.toNat ≤ 16) (hbits : bits.toNat < 2 ^ n.toNat) :
    literal n bits = some (bitsMsbFirst n.toNat bits.toNat) :=
  if_pos ⟨hn, hbits⟩

theorem literal_of_illegal (h : 16 < n.toNat ∨ 2 ^ n.toNat ≤ bits.toNat) : literal n bits = none :=
  if_neg fun ⟨hn, hbits⟩ => h.elim hn.not_gt hbits.not_ge

variable {s : State}

theorem exec_bput_of_illegal (h : literal n bits = none) :
    exec (.bput n bits) s = raise s .illegalCommand (encode (.bput n bits)) := by
  simp only [exec, execBput, h]

variable {lit : Bits} (h : literal n bits = some lit)
include h

theorem exec_bput_of_full (hgt : s.cfg.bbCap < s.bb.length + lit.length) :
    exec (.bput n bits) s = raise s .capacityExceeded (encode (.bput n bits)) := by
  simp only [exec, execBput, h, State.append_of_gt hgt]

theorem exec_bput_of_fits (hle : s.bb.length + lit.length ≤ s.cfg.bbCap) :
    exec (.bput n bits) s = complete { s with bb := s.bb ++ lit } [] .done := by
  simp only [exec, execBput, h, State.append_of_le hle]

end

/-- Settles O49, by the arms of `BPUT`; the literal is the operand's low n bits. -/
theorem bputAppendsTheLiteral : Obligations.BputAppendsTheLiteral := by
  refine ⟨wordL_toNat 0x29#6, fun s n bits => ⟨fun hill => ?_, fun hn hbits hgt => ?_, fun hn hbits hle => ?_⟩,
    strayBitsFault_of_formatL (mk := .bput) fun w ho => ?_⟩
  · exact exec_bput_of_illegal (literal_of_illegal hill)
  · exact exec_bput_of_full (literal_of_legal hn hbits) (by rwa [bitsMsbFirst_length])
  · exact ⟨_, exec_bput_of_fits (literal_of_legal hn hbits) (by rwa [bitsMsbFirst_length]), bitsMsbFirst_length _ _,
      bitsMsbFirst_get _ _⟩
  · simp only [decode, ho]

/-! `BGET` (R152). -/

theorem setWidth_ofBool (b : Bool) : (BitVec.ofBool b).setWidth 32 = (if b then 1 else 0 : Word) := by
  cases b <;> rfl

theorem State.readValue_bget_of_lt {s : State} {idx : BitVec 26} (h : idx.toNat < s.bb.length) :
    s.readValue (.bget idx) = some (if s.bb[idx.toNat] then 1 else 0) := by
  rw [State.readValue, List.getElem?_eq_getElem h, Option.map_some, setWidth_ofBool]

theorem State.readValue_bget_of_ge {s : State} {idx : BitVec 26} (h : s.bb.length ≤ idx.toNat) :
    s.readValue (.bget idx) = none := by
  rw [State.readValue, List.getElem?_eq_none h, Option.map_none]

/-- Settles O50: `BGET` is a read, by whether its index is below BBLEN. -/
theorem bgetReadsTheBit : Obligations.BgetReadsTheBit :=
  ⟨wordI_toNat 0x2A#6, fun _ idx =>
    ⟨fun h => exec_read_of_none (.inr (.inr ⟨idx, rfl⟩)) (State.readValue_bget_of_ge h),
      fun h => exec_read_of_some (.inr (.inr ⟨idx, rfl⟩)) (State.readValue_bget_of_lt h)⟩⟩

end Sys2Proof.Machine

/-! PROOFS. The bit-packer `PACK` and the unpacker `UBYTE`, `UEND` (R153 to R158). -/

namespace Sys2Proof.Machine

/-! `PACK` (R153). -/

/-- A bitstring padded with zeros to whole bytes (R57). -/
def padded (bb : Bits) : Bits := bb ++ List.replicate (padding bb.length) false

theorem exec_pack (s : State) :
    exec .pack s = complete { s with bb := [] }
      (.byte (BitVec.ofNat 8 (padding s.bb.length)) :: (packedBytes (padded s.bb)).map .byte) .done := rfl

theorem padded_length (bb : Bits) : (padded bb).length = bb.length + padding bb.length := by
  rw [padded, List.length_append, List.length_replicate]

theorem padded_length_mod (bb : Bits) : (padded bb).length % 8 = 0 := by
  rw [padded_length]
  exact (padding_spec bb.length).2.1

/-- Padding adds zeros only, which is what an index past the end reads. -/
theorem padded_getD (bb : Bits) (i : Nat) : (padded bb).getD i false = bb.getD i false := by
  rw [padded]
  rcases lt_or_ge i bb.length with h | h
  · rw [List.getD_append _ _ _ _ h]
  · rw [List.getD_append_right _ _ _ _ h, List.getD_eq_default _ _ h, List.getD_eq_getElem?_getD,
      List.getElem?_getD_replicate_default_eq]

theorem byteBits_get (b : Byte) {j : Nat} (hj : j < 8) : (byteBits b)[j]? = some (b.getLsbD (7 - j)) :=
  bitsMsbFirst_get 8 b.toNat j hj

/-- Bit j of byte g in stream order is bit 7-j of that byte (R53). -/
theorem flatMap_byteBits_get (bytes : List Byte) {g j : Nat} (hg : g < bytes.length) (hj : j < 8) :
    (bytes.flatMap byteBits)[8 * g + j]? = some ((bytes.getD g 0).getLsbD (7 - j)) := by
  induction bytes generalizing g with
  | nil => exact absurd hg (Nat.not_lt_zero g)
  | cons b bytes ih =>
    rw [List.flatMap_cons]
    cases g with
    | zero =>
      rw [Nat.mul_zero, Nat.zero_add, List.getElem?_append_left (by rwa [byteBits_length]), byteBits_get b hj]
      rfl
    | succ g =>
      have hpos : 8 * (g + 1) + j = (byteBits b).length + (8 * g + j) := by rw [byteBits_length]; omega
      rw [hpos, List.getElem?_append_right (Nat.le_add_right _ _), Nat.add_sub_cancel_left,
        ih (Nat.lt_of_succ_lt_succ hg)]
      rfl

/-- Settles O51: the bytes of the padded bitstring unpack to it. -/
theorem packEmitsHeaderAndBytes : Obligations.PackEmitsHeaderAndBytes := by
  refine ⟨rfl, fun s => ⟨packedBytes (padded s.bb), exec_pack s, ?_, fun g j hg hj => ?_⟩,
    strayBitsFault_of_formatN (i := .pack) fun w ho => ?_⟩
  · exact (packedBytes_length _ (padded_length_mod s.bb)).trans (padded_length s.bb)
  · have hbit := flatMap_byteBits_get _ hg hj
    rw [flatMap_byteBits_packedBytes _ (padded_length_mod s.bb)] at hbit
    exact (congrArg (Option.getD · false) hbit).symm.trans (padded_getD _ _)
  · simp only [decode, ho]

/-! `UBYTE` (R157). -/

section
variable {s : State} {b : Byte}

theorem exec_ubyte_of_bad_header (hust : s.ust = .hdr) (hb : 7 < b.toNat) :
    exec (.ubyte b) s = raise s .malformedStream (encode (.ubyte b)) := by
  simp only [exec, execUbyte, hust, if_pos hb]

theorem exec_ubyte_of_header (hust : s.ust = .hdr) (hb : b.toNat ≤ 7) :
    exec (.ubyte b) s =
      complete { s with pad := b.setWidth 3, ust := .data, udat := false, bb := [] } [] .done := by
  simp only [exec, execUbyte, hust, if_neg hb.not_gt]

theorem exec_ubyte_of_full (hust : s.ust = .data) (hgt : s.cfg.bbCap < s.bb.length + 8) :
    exec (.ubyte b) s = raise s .capacityExceeded (encode (.ubyte b)) := by
  simp only [exec, execUbyte, hust, State.append_of_gt (bits := byteBits b) (by rwa [byteBits_length])]

theorem exec_ubyte_of_fits (hust : s.ust = .data) (hle : s.bb.length + 8 ≤ s.cfg.bbCap) :
    exec (.ubyte b) s = complete { s with bb := s.bb ++ byteBits b, udat := true } [] .done := by
  simp only [exec, execUbyte, hust, State.append_of_le (bits := byteBits b) (by rwa [byteBits_length])]

end

/-- Settles O52, by the state of the unpacker and the arms of `UBYTE` in it. -/
theorem ubyteTakesHeaderThenData : Obligations.UbyteTakesHeaderThenData := by
  refine ⟨wordB_toNat 0x2C#6, fun s b => ⟨fun hust hb => ?_, fun hust hb => ?_, fun hust hgt => ?_, fun hust hle => ?_⟩,
    strayBitsFault_of_formatB (mk := .ubyte) fun w ho => ?_⟩
  · exact exec_ubyte_of_bad_header hust hb
  · have hp := (BitVec.toNat_setWidth 3 b).trans (Nat.mod_eq_of_lt (Nat.lt_succ_of_le hb))
    exact ⟨b.setWidth 3, hp, exec_ubyte_of_header hust hb⟩
  · exact exec_ubyte_of_full hust hgt
  · exact exec_ubyte_of_fits hust hle
  · simp only [decode, ho]

/-! `UEND` (R158). -/

section
variable {s : State}

theorem exec_uend_of_hdr (hust : s.ust = .hdr) : exec .uend s = raise s .malformedStream (encode .uend) := by
  simp only [exec, execUend, hust]

/-- Padding was announced and no data byte came. -/
theorem exec_uend_of_no_data (hust : s.ust = .data) (hpad : s.pad ≠ 0#3) (hudat : s.udat = false) :
    exec .uend s = raise s .malformedStream (encode .uend) := by
  simp only [exec, execUend, hust, if_pos (And.intro hpad hudat)]

theorem exec_uend_of_data (hust : s.ust = .data) (h : s.pad = 0#3 ∨ s.udat = true) :
    exec .uend s =
      complete { s with bb := s.bb.take (s.bb.length - s.pad.toNat), ust := .hdr, udat := false } [] .done := by
  have hne : ¬(s.pad ≠ 0#3 ∧ s.udat = false) := fun ⟨hpad, hudat⟩ => h.elim hpad (by simp [hudat])
  simp only [exec, execUend, hust, if_neg hne]

end

/-- The subtraction of R158 saturates at 0 (R92 row 11). -/
theorem saturating_sub (a b : Nat) : (if b ≤ a then a - b else 0) = a - b :=
  ite_eq_left_iff.2 fun h => (Nat.sub_eq_zero_of_le (Nat.le_of_not_le h)).symm

/-- Settles O53, by the arms of `UEND`. -/
theorem uendStripsThePadding : Obligations.UendStripsThePadding := by
  refine ⟨rfl, fun s => ⟨fun hust => ?_, fun hust hpad hudat => ?_, fun hust h => ?_⟩,
    strayBitsFault_of_formatN (i := .uend) fun w ho => ?_⟩
  · exact exec_uend_of_hdr hust
  · exact exec_uend_of_no_data hust hpad hudat
  · rw [saturating_sub]
    exact exec_uend_of_data hust h
  · simp only [decode, ho]

end Sys2Proof.Machine

/-! PROOFS. The round trip of packing (R155, R159). -/

namespace Sys2Proof.Machine

/-- The state after a `UBYTE` of each of some data bytes: BB has gained their bits (R157). -/
def State.unpacked (s : State) (data : List Byte) : State :=
  { s with bb := s.bb ++ data.flatMap byteBits, udat := s.udat || !data.isEmpty,
           cmdseq := s.cmdseq + BitVec.ofNat 32 data.length,
           out := s.out ++ List.replicate data.length (.answered [] .done) }

theorem State.unpacked_nil (s : State) : s.unpacked [] = s := by
  simp [State.unpacked]

theorem State.unpacked_cons (s : State) (b : Byte) (data : List Byte) :
    (State.answer { s with bb := s.bb ++ byteBits b, udat := true } [] .done).unpacked data = s.unpacked (b :: data) := by
  have hseq : s.cmdseq + BitVec.ofNat 32 (data.length + 1) = s.cmdseq + 1#32 + BitVec.ofNat 32 data.length := by
    rw [BitVec.ofNat_add, BitVec.add_comm (BitVec.ofNat 32 data.length), BitVec.add_assoc]
  simp [State.unpacked, hseq, List.replicate_succ]

/-- Each data byte finds room for its eight bits (R157). -/
theorem execAll_ubyte {s : State} {data : List Byte} (hust : s.ust = .data)
    (hfit : s.bb.length + 8 * data.length ≤ s.cfg.bbCap) :
    execAll (data.map .ubyte) s = .next (s.unpacked data) := by
  induction data generalizing s with
  | nil =>
    rw [State.unpacked_nil]
    rfl
  | cons b data ih =>
    rw [List.length_cons] at hfit
    have hexec := exec_ubyte_of_fits (b := b) hust (by omega)
    rw [List.map_cons, execAll_cons_of_next hexec, ← State.unpacked_cons]
    refine ih hust ?_
    simp only [State.answer_bb, State.answer_cfg, List.length_append, byteBits_length]
    omega

/-- The padding count comes through the header byte and the register PAD (R153, R157). -/
theorem padding_through_header (len : Nat) :
    (BitVec.ofNat 8 (padding len)).toNat ≤ 7 ∧ ((BitVec.ofNat 8 (padding len)).setWidth 3).toNat = padding len := by
  have hlt := (padding_spec len).1
  rw [BitVec.toNat_setWidth, BitVec.toNat_ofNat]
  omega

/-- Taking the padding off a padded bitstring gives the bitstring back (R155). -/
theorem take_padded (bb : Bits) : (padded bb).take ((padded bb).length - padding bb.length) = bb := by
  rw [padded_length, Nat.add_sub_cancel, padded]
  exact List.take_left

/-- Where bits are padded there is a data byte that holds them, so the padding is never announced without one. -/
theorem packedBytes_padded_ne_nil {bb : Bits} (h : padding bb.length ≠ 0) : packedBytes (padded bb) ≠ [] := by
  intro hnil
  have hlen := packedBytes_length _ (padded_length_mod bb)
  rw [hnil, padded_length, List.length_nil] at hlen
  omega

/-- `UBYTE` of each data byte and `UEND` after them: BB has gained their bits and lost the padding (R157, R158). -/
theorem execAll_data_uend {s : State} {data : List Byte} (hust : s.ust = .data)
    (hfit : s.bb.length + 8 * data.length ≤ s.cfg.bbCap) (h : s.pad = 0#3 ∨ data ≠ []) :
    ∃ u, execAll (data.map .ubyte ++ [.uend]) s = .next u ∧
      u.out = s.out ++ List.replicate (data.length + 1) (.answered [] .done) ∧
      u.bb = (s.bb ++ data.flatMap byteBits).take ((s.bb ++ data.flatMap byteBits).length - s.pad.toNat) ∧
      u.ust = .hdr := by
  have hudat : (s.unpacked data).pad = 0#3 ∨ (s.unpacked data).udat = true :=
    h.imp id fun hne => by simp [State.unpacked, hne]
  have huend := exec_uend_of_data (s := s.unpacked data) hust hudat
  refine ⟨_, (execAll_append_of_next (execAll_ubyte hust hfit)).trans (execAll_cons_of_next huend), ?_, rfl, rfl⟩
  rw [State.answer_out, State.unpacked, List.append_assoc, ← List.replicate_succ']

/-- `UNPACK` of the bytes of `PACK` gives the packed bits back (R155): the header, the data bytes, and the padding off the
end. -/
theorem execAll_unpack {s : State} {bits : Bits} (hust : s.ust = .hdr) (hfit : (padded bits).length ≤ s.cfg.bbCap) :
    ∃ u, execAll (Pseudo.unpack (BitVec.ofNat 8 (padding bits.length) :: packedBytes (padded bits))).expand s = .next u ∧
      u.out = s.out ++ List.replicate ((packedBytes (padded bits)).length + 2) (.answered [] .done) ∧
      u.bb = bits ∧ u.ust = .hdr := by
  obtain ⟨hle, hpad⟩ := padding_through_header bits.length
  have hpresent : (BitVec.ofNat 8 (padding bits.length)).setWidth 3 = 0#3 ∨ packedBytes (padded bits) ≠ [] :=
    or_iff_not_imp_left.2 fun hne => packedBytes_padded_ne_nil fun h0 => hne (BitVec.eq_of_toNat_eq (hpad.trans h0))
  obtain ⟨u, hu, hout, hbb, hhdr⟩ := execAll_data_uend
    (s := State.answer { s with pad := (BitVec.ofNat 8 (padding bits.length)).setWidth 3, ust := .data, udat := false,
                                bb := [] } [] .done)
    rfl (by simpa [packedBytes_length _ (padded_length_mod bits)] using hfit) hpresent
  refine ⟨u, (execAll_cons_of_next (exec_ubyte_of_header hust hle)).trans hu, ?_, ?_, hhdr⟩
  · rw [hout, State.answer_out, List.append_assoc, List.singleton_append, ← List.replicate_succ]
  · rw [hbb, State.answer_bb, State.answer_pad, List.nil_append, hpad,
      flatMap_byteBits_packedBytes _ (padded_length_mod bits), take_padded]

/-- Settles O55: `PACK` leaves UST and empties BB, and `UNPACK` of its bytes fills BB again. -/
theorem unpackOfPackRecoversBits : Obligations.UnpackOfPackRecoversBits := by
  intro s hust hfit
  rw [← (padding_spec s.bb.length).2.2, ← padded_length] at hfit
  obtain ⟨u, hu, hout, hbb, hhdr⟩ := execAll_unpack
    (s := State.answer { s with bb := [] } (packItems s.bb) .done) hust hfit
  exact ⟨_, u, _, exec_pack s, State.answer_out _ _ _, hu, hout, hbb, hhdr⟩

end Sys2Proof.Machine

/-! PROOFS. The system commands `NOP`, `CSRR`, `CSRW`, `SRST` (R170 to R173), and the stray bits of format R (R74). -/

namespace Sys2Proof.Machine

/-- A word of an opcode of format R with a bit set in its zero field selects no command (R72, R74). -/
theorem strayBitsFault_of_formatR {op : BitVec 6} {mk : BitVec 4 → Instr}
    (hdec : ∀ w, opcode w = op → decode w = formatR w mk) : StrayBitsFault op 4 22 :=
  fun s w ho hz => runWord_of_error ((hdec w ho).trans (if_neg hz)) s

/-- Settles O23: `NOP` completes and does nothing else. -/
theorem nopChangesOnlyCmdseq : Obligations.NopChangesOnlyCmdseq := by
  refine ⟨rfl, fun s => rfl, strayBitsFault_of_formatN (i := .nop) fun w ho => ?_⟩
  simp only [decode, ho]

/-- Settles O27: `SRST` has no fault of its own, so its meaning is one update of the state. -/
theorem srstResetsEverything : Obligations.SrstResetsEverything := by
  refine ⟨rfl, fun s => rfl, strayBitsFault_of_formatN (i := .srst) fun w ho => ?_⟩
  simp only [decode, ho]

/-! `CSRR` (R171): the registers whose VALUE is put together from fields or widened to 32 bits, each as a number. -/

section
variable (s : State)

theorem Ust.bit_eq_decide (u : Ust) : u.bit = decide (u = .data) := by
  cases u <;> rfl

theorem State.dmid_eq_decide : s.dmid = decide (s.tree = true ∧ s.dptr ≠ s.root) := by
  rw [State.dmid, Bool.decide_and, Bool.decide_eq_true]

/-- STATUS as a sum: each flag is one bit at its own place, so the five make a number below 32 (R38). -/
theorem State.statusWord_eq_ofNat : s.statusWord = BitVec.ofNat 32
    (16 * s.dmid.toNat + 8 * s.udat.toNat + 4 * s.ust.bit.toNat + 2 * s.codes.toNat + s.tree.toNat) := by
  have hdmid := s.dmid.toNat_lt
  have hudat := s.udat.toNat_lt
  have hust := s.ust.bit.toNat_lt
  have hcodes := s.codes.toNat_lt
  have htree := s.tree.toNat_lt
  apply BitVec.eq_of_toNat_eq
  simp only [State.statusWord, toNat_append_add, BitVec.toNat_ofBool, BitVec.toNat_ofNat]
  omega

theorem State.csrRead_cfg : s.csrRead 0x1 = some (BitVec.ofNat 32 (32 * s.cfg.cntW + s.cfg.symW)) :=
  congrArg some (cfgWord_eq s.cfg)

theorem State.csrRead_status : s.csrRead 0x2 = some (BitVec.ofNat 32
    (16 * (decide (s.tree = true ∧ s.dptr ≠ s.root)).toNat + 8 * s.udat.toNat + 4 * (decide (s.ust = .data)).toNat +
      2 * s.codes.toNat + s.tree.toNat)) := by
  rw [← s.dmid_eq_decide, ← s.ust.bit_eq_decide, ← s.statusWord_eq_ofNat]
  rfl

theorem State.csrRead_ecause : s.csrRead 0x3 = some (BitVec.ofNat 32 s.ecause.toNat) :=
  congrArg some (BitVec.ofNat_toNat 32 s.ecause).symm

theorem State.csrRead_eolchar : s.csrRead 0x6 = some (BitVec.ofNat 32 s.eolchar.toNat) :=
  congrArg some (BitVec.ofNat_toNat 32 s.eolchar).symm

theorem State.csrRead_pad : s.csrRead 0x9 = some (BitVec.ofNat 32 s.pad.toNat) :=
  congrArg some (BitVec.ofNat_toNat 32 s.pad).symm

end

theorem exec_csrr_of_some {s : State} {addr : BitVec 4} {v : Word} (h : s.csrRead addr = some v) :
    exec (.csrr addr) s = complete s [] (.value v) := by
  simp only [exec, execCsrr, h]

/-- The addresses past 0xD are reserved (R46). -/
theorem exec_csrr_of_reserved {addr : BitVec 4} (h : 0xD < addr.toNat) (s : State) :
    exec (.csrr addr) s = .next (s.afterFault [] .illegalCommand (encode (.csrr addr))) := by
  have hne : addr ≠ 0x5#4 := by
    rintro rfl
    exact absurd h (by decide)
  exact exec_read_of_none (.inl ⟨addr, rfl, hne⟩) ((s.csrRead_eq_none_iff addr).2 h)

/-- Settles O24: `CSRR` answers what the register reads, address by address. -/
theorem csrrReadsEveryRegister : Obligations.CsrrReadsEveryRegister := by
  refine ⟨wordR_toNat 0x02#6, fun s => ?_, strayBitsFault_of_formatR (mk := .csrr) fun w ho => ?_⟩
  · exact ⟨exec_csrr_of_some rfl, exec_csrr_of_some s.csrRead_cfg, exec_csrr_of_some s.csrRead_status,
      exec_csrr_of_some s.csrRead_ecause, exec_csrr_of_some rfl, exec_csrr_of_some rfl,
      exec_csrr_of_some s.csrRead_eolchar, exec_csrr_of_some rfl, exec_csrr_of_some rfl,
      exec_csrr_of_some s.csrRead_pad, exec_csrr_of_some rfl, exec_csrr_of_some rfl, exec_csrr_of_some rfl,
      exec_csrr_of_some rfl, exec_csrr_of_reserved (by decide) s, exec_csrr_of_reserved (by decide) s⟩
  · simp only [decode, ho]

/-! `CSRW` (R172), an equation for each arm. -/

section
variable {s : State} {addr : BitVec 4} {v : BitVec 22}

theorem exec_csrw_ecause_zero (s : State) :
    exec (.csrw 0x3#4 0#22) s = complete { s with ecause := 0, einfo := 0 } [] .done :=
  rfl

theorem exec_csrw_ecause_of_ne_zero (hv : v ≠ 0#22) :
    exec (.csrw 0x3#4 v) s = raise s .illegalCommand (encode (.csrw 0x3#4 v)) :=
  if_neg hv

theorem exec_csrw_eolchar_of_lt (hv : v.toNat < 2 ^ s.cfg.symW) :
    exec (.csrw 0x6#4 v) s = complete { s with eolchar := v.setWidth 21 } [] .done :=
  if_pos hv

theorem exec_csrw_eolchar_of_ge (hv : 2 ^ s.cfg.symW ≤ v.toNat) :
    exec (.csrw 0x6#4 v) s = raise s .illegalCommand (encode (.csrw 0x6#4 v)) :=
  if_neg hv.not_gt

/-- Every address but those of ECAUSE and EOLCHAR is read-only or reserved. -/
theorem exec_csrw_of_not_writable (hecause : addr ≠ 0x3#4) (heolchar : addr ≠ 0x6#4) :
    exec (.csrw addr v) s = raise s .illegalCommand (encode (.csrw addr v)) :=
  (if_neg hecause).trans (if_neg heolchar)

/-- A character code fits in the 21 bits of EOLCHAR (R8, R33). -/
theorem toNat_setWidth_of_lt_two_pow {n : Nat} (hn : n ≤ 21) (hv : v.toNat < 2 ^ n) :
    (v.setWidth 21).toNat = v.toNat :=
  (BitVec.toNat_setWidth 21 v).trans (Nat.mod_eq_of_lt (hv.trans_le (Nat.pow_le_pow_right (by decide) hn)))

end

/-- Settles O26, by the arms of `CSRW`. -/
theorem csrwWritesOrRefuses : Obligations.CsrwWritesOrRefuses :=
  ⟨wordW_toNat 0x03#6, fun s => ⟨exec_csrw_ecause_zero s, fun _ hv => exec_csrw_ecause_of_ne_zero hv,
    fun hsym _ hv => ⟨_, toNat_setWidth_of_lt_two_pow hsym hv, exec_csrw_eolchar_of_lt hv⟩,
    fun _ hv => exec_csrw_eolchar_of_ge hv, fun _ _ hecause heolchar => exec_csrw_of_not_writable hecause heolchar⟩⟩

end Sys2Proof.Machine

/-! PROOFS. What a fault is, for a command and for a command word (R188, R189, R194); the idle core and the host's reset
(R198, R200, R201); `BUILD` of an empty table (R181); the words the spec writes out. -/

namespace Sys2Proof.Machine

/-- A command that answers ERR has changed only the fault record and CMDSEQ, for a cause of its row of the cause matrix;
only `DRUN` can have emitted items, and they are SYM items (R188, R189, R194). -/
theorem exec_fault {i : Instr} {s t : State} {items : List Item} {c : Cause} (h : exec i s = .next t)
    (hout : t.out = s.out ++ [.answered items (.err c)]) :
    t = s.afterFault items c (encode i) ∧ mayRaise i c = true ∧ c ≠ .ioError ∧ (items ≠ [] → i = .drun) ∧
      ∀ x ∈ items, ∃ v, x = Item.sym v := by
  rcases exec_cases i s with ⟨items', c', hx, hfault⟩ | ⟨u, items', term, hx, hterm, -, -, hu, -⟩ | rfl
  · cases hx.symm.trans h
    obtain ⟨rfl, rfl⟩ : items' = items ∧ c' = c := by simpa using hout
    exact ⟨rfl, hfault⟩
  · cases hx.symm.trans h
    rw [State.answer_out, hu] at hout
    exact absurd (terminal_eq_of_out_eq hout) (hterm c)
  · cases h
    exact nomatch terminal_eq_of_out_eq hout

/-- The same of a word, which need not select a command (R77). -/
theorem runWord_fault {w : Word} {s t : State} {items : List Item} {c : Cause} (h : runWord w s = .next t)
    (hout : t.out = s.out ++ [.answered items (.err c)]) :
    t = s.afterFault items c w ∧ c ≠ .ioError ∧
      (c = .illegalCommand ∨ ∃ i, decode w = .ok i ∧ mayRaise i c = true) ∧
      (items ≠ [] → decode w = .ok .drun) ∧ ∀ x ∈ items, ∃ v, x = Item.sym v := by
  cases hd : decode w with
  | error r =>
    cases (runWord_of_error hd s).symm.trans h
    obtain ⟨rfl, rfl⟩ : [] = items ∧ .illegalCommand = c := by simpa using hout
    exact ⟨rfl, nofun, .inl rfl, absurd rfl, nofun⟩
  | ok i =>
    obtain ⟨ht, hcause, hio, hdrun, hsym⟩ := exec_fault ((runWord_of_ok hd s).symm.trans h) hout
    rw [decodedWordIsItsEncoding w i hd] at ht
    exact ⟨ht, hio, .inr ⟨i, rfl, hcause⟩, fun hne => congrArg _ (hdrun hne), hsym⟩

/-- Settles O16: a fault of the word presented, with its cause in the response word of R86. -/
theorem faultsArePrecise : Obligations.FaultsArePrecise := by
  intro s t w rest items c hs h hout
  obtain ⟨ht, -, -, hdrun, hsym⟩ := runWord_fault ((step_cmd hs).symm.trans h) hout
  obtain ⟨-, -, -, -, -, hresponse⟩ := causeCodesAndResponseWords
  exact ⟨ht, hresponse c, hdrun, hsym⟩

/-- Settles O18: the cause of a fault of the word presented is in the row of the command it selects. -/
theorem commandsRaiseOnlyTheirCauses : Obligations.CommandsRaiseOnlyTheirCauses := by
  intro s t w rest items c hs h hout
  obtain ⟨-, hio, hcause, -⟩ := runWord_fault ((step_cmd hs).symm.trans h) hout
  exact ⟨hio, hcause⟩

/-- Settles O9: what the step does with nothing presented, and with the reset input. -/
theorem idleKeepsStateAndResetInputResets : Obligations.IdleKeepsStateAndResetInputResets :=
  ⟨fun _ => step_nil, fun _ _ => step_rst⟩

/-- The items transferred before the reset are the first `k` of the reply the command would have answered (R201). -/
theorem resetDuring_of_answered {s t : State} {items : List Item} {term : Terminal}
    (hout : t.out = s.out ++ [.answered items term]) (k : Nat) :
    resetDuring k (.next t) s = .next { s.cleared with out := s.out ++ [.abandoned (items.take k)] } := by
  simp only [resetDuring, hout, List.drop_left, List.flatMap_singleton, Reply.items]

/-- Settles O10: the abandoned command would have answered one reply, and its first `k` items are all that is left. -/
theorem resetDuringCommandAbandonsIt : Obligations.ResetDuringCommandAbandonsIt := by
  intro s w k rest hs
  obtain ⟨t, items, term, ht, hout⟩ := runWord_answers w { s with input := rest }
  refine ⟨items.take k, ?_, List.length_take_le k items, fun t' all term' ht' hout' => ?_⟩
  · rw [step_rstDuring hs, ht]
    exact resetDuring_of_answered hout k
  · cases ht.symm.trans ht'
    obtain ⟨rfl, -⟩ := answered_inj_of_out_eq (hout.symm.trans hout')
    exact List.take_prefix k items

/-- Settles O31: no symbol is present where every count is 0, and the word of `BUILD` is the one named. -/
theorem buildOfEmptyTableFaults : Obligations.BuildOfEmptyTableFaults := by
  intro s hcounts
  have hnone : present s.cfg s.ft = [] := by
    refine List.eq_nil_iff_forall_not_mem.2 fun id hid => ?_
    obtain ⟨hlt, hpos⟩ := mem_present.1 hid
    exact absurd (hcounts id hlt) (Nat.ne_of_gt hpos)
  exact exec_build_of_none_present hnone

/-- Settles O4: each word is the encoding of the command it stands for. -/
theorem writtenWordsDecodeToTheirCommands : Obligations.WrittenWordsDecodeToTheirCommands := by
  unfold Obligations.WrittenWordsDecodeToTheirCommands
  simp only [decode_eq_ok_iff]
  decide

end Sys2Proof.Machine

/-! PROOFS. Which words are IllegalCommand (R74, R77, R186): those that match no row of the opcode map, and those whose
operand is outside its constraint. `legalWord` is the model's own test of both. -/

namespace Sys2Proof.Machine

/-! The operand constraints of the model, and what the meanings' own tests of them answer (R73, R74). -/

section
variable {c : Config}

theorem symbolOk_eq_false_iff {S : Bool} {char : BitVec 21} :
    symbolOk c S char = false ↔ S = true ∧ char ≠ 0#21 ∨ S = false ∧ 2 ^ c.symW ≤ char.toNat := by
  cases S <;> simp [symbolOk]

theorem csrWriteOk_eq_false_iff {addr : BitVec 4} {value : BitVec 22} :
    csrWriteOk c addr value = false ↔
      ¬(addr = 0x3#4 ∧ value = 0#22) ∧ ¬(addr = 0x6#4 ∧ value.toNat < 2 ^ c.symW) := by
  simp [csrWriteOk]

theorem literalOk_eq_false_iff {n : BitVec 5} {bits : BitVec 16} :
    literalOk n bits = false ↔ 16 < n.toNat ∨ 2 ^ n.toNat ≤ bits.toNat := by
  simp [literalOk, imp_iff_not_or]

theorem symid_isSome (S : Bool) (char : BitVec 21) : (symid c S char).isSome = symbolOk c S char := by
  cases S with
  | true => by_cases h : char = 0#21 <;> simp [symid, symbolOk, h]
  | false => by_cases h : char.toNat < 2 ^ c.symW <;> simp [symid, symbolOk, h]

theorem symid_of_not_symbolOk {S : Bool} {char : BitVec 21} (h : symbolOk c S char = false) :
    symid c S char = none := by
  rwa [← symid_isSome, Option.isSome_eq_false_iff, Option.isNone_iff_eq_none] at h

theorem exists_symid_of_symbolOk {S : Bool} {char : BitVec 21} (h : symbolOk c S char = true) :
    ∃ id, symid c S char = some id :=
  Option.isSome_iff_exists.1 ((symid_isSome S char).trans h)

theorem exists_literal_of_literalOk {n : BitVec 5} {bits : BitVec 16} (h : literalOk n bits = true) :
    ∃ lit, literal n bits = some lit := by
  obtain ⟨hn, hbits⟩ : n.toNat ≤ 16 ∧ bits.toNat < 2 ^ n.toNat := by simpa [literalOk] using h
  exact ⟨_, literal_of_legal hn hbits⟩

end

/-! A command whose operand is outside its constraint is IllegalCommand. -/

theorem exec_csrw_of_not_csrWriteOk {s : State} {addr : BitVec 4} {value : BitVec 22}
    (h : csrWriteOk s.cfg addr value = false) :
    exec (.csrw addr value) s = raise s .illegalCommand (encode (.csrw addr value)) := by
  obtain ⟨hecause, heolchar⟩ := csrWriteOk_eq_false_iff.1 h
  by_cases h3 : addr = 0x3#4
  · subst h3
    exact exec_csrw_ecause_of_ne_zero fun hv => hecause ⟨rfl, hv⟩
  · by_cases h6 : addr = 0x6#4
    · subst h6
      exact exec_csrw_eolchar_of_ge (Nat.le_of_not_lt fun hv => heolchar ⟨rfl, hv⟩)
    · exact exec_csrw_of_not_writable h3 h6

theorem exec_of_not_legal {i : Instr} {s : State} (h : i.legal s.cfg s.bb.length = false) :
    exec i s = raise s .illegalCommand (encode i) := by
  cases i with
  | csrr addr => exact exec_csrr_of_reserved (Nat.lt_of_not_le (of_decide_eq_false h)) s
  | csrw addr value => exact exec_csrw_of_not_csrWriteOk h
  | fsym S char => exact exec_of_no_symbol (symid_of_not_symbolOk h) (.inl rfl)
  | frd S char => exact exec_of_no_symbol (symid_of_not_symbolOk h) (.inr (.inl rfl))
  | esym S char => exact exec_of_no_symbol (symid_of_not_symbolOk h) (.inr (.inr rfl))
  | bput n bits => exact exec_bput_of_illegal (literal_of_illegal (literalOk_eq_false_iff.1 h))
  | bget idx =>
    have hge : s.bb.length ≤ idx.toNat := Nat.le_of_not_lt (of_decide_eq_false h)
    exact exec_read_of_none (.inr (.inr ⟨idx, rfl⟩)) (State.readValue_bget_of_ge hge)
  | _ => exact nomatch h

/-! A command whose operand is within its constraint is never IllegalCommand, whatever else it answers. -/

/-- The outcome is one more reply, and its terminal is not ERR IllegalCommand. -/
def AnswersLegal (s : State) (o : Result) : Prop :=
  Answers s o fun _ term => term ≠ .err .illegalCommand

section
variable {s : State}

theorem answersLegal_of_complete {o : Result} {u : State} {items : List Item} {term : Terminal}
    (h : o = complete u items term) (hterm : ∀ c, term ≠ .err c := by nofun) (hu : u.out = s.out := by rfl) :
    AnswersLegal s o := by
  subst h
  exact complete_answers hu (hterm .illegalCommand)

theorem answersLegal_of_fault {o : Result} {items : List Item} {c : Cause} {w : Word}
    (h : o = raiseAfter s items c w) (hc : c ≠ .illegalCommand := by decide) : AnswersLegal s o := by
  subst h
  exact ⟨_, items, .err c, rfl, rfl, fun he => hc (Terminal.err.inj he)⟩

theorem exec_csrr_answersLegal {addr : BitVec 4} (h : addr.toNat ≤ 0xD) : AnswersLegal s (exec (.csrr addr) s) := by
  obtain ⟨v, hv⟩ := Option.ne_none_iff_exists'.1 (mt (s.csrRead_eq_none_iff addr).1 h.not_gt)
  exact answersLegal_of_complete (exec_csrr_of_some hv)

theorem exec_csrw_answersLegal {addr : BitVec 4} {value : BitVec 22} (h : csrWriteOk s.cfg addr value = true) :
    AnswersLegal s (exec (.csrw addr value) s) := by
  simp only [csrWriteOk, Bool.or_eq_true, Bool.and_eq_true, beq_iff_eq, decide_eq_true_eq] at h
  obtain ⟨rfl, rfl⟩ | ⟨rfl, hv⟩ := h
  · exact answersLegal_of_complete (exec_csrw_ecause_zero s)
  · exact answersLegal_of_complete (exec_csrw_eolchar_of_lt hv)

theorem exec_fsym_answersLegal {S : Bool} {char : BitVec 21} (h : symbolOk s.cfg S char = true) :
    AnswersLegal s (exec (.fsym S char) s) := by
  obtain ⟨id, hid⟩ := exists_symid_of_symbolOk h
  by_cases hmax : s.count id = s.cfg.cntMax
  · exact answersLegal_of_fault (exec_fsym_of_max hid hmax)
  · exact answersLegal_of_complete (exec_fsym_of_ne_max hid hmax)

theorem exec_frd_answersLegal {S : Bool} {char : BitVec 21} (h : symbolOk s.cfg S char = true) :
    AnswersLegal s (exec (.frd S char) s) := by
  obtain ⟨id, hid⟩ := exists_symid_of_symbolOk h
  exact answersLegal_of_complete (exec_frd_of_symbol hid)

theorem exec_build_answersLegal : AnswersLegal s (exec .build s) := by
  by_cases hp : present s.cfg s.ft = []
  · exact answersLegal_of_fault (exec_build_of_none_present hp)
  · exact answersLegal_of_complete (exec_build_of_present hp)

theorem exec_derive_answersLegal : AnswersLegal s (exec .derive s) := by
  cases ht : s.tree with
  | false => exact answersLegal_of_fault (exec_derive_of_no_tree ht)
  | true => exact answersLegal_of_complete (exec_derive_of_tree ht)

theorem exec_esym_answersLegal {S : Bool} {char : BitVec 21} (h : symbolOk s.cfg S char = true) :
    AnswersLegal s (exec (.esym S char) s) := by
  obtain ⟨id, hid⟩ := exists_symid_of_symbolOk h
  cases hc : s.codes with
  | false => exact answersLegal_of_fault (exec_esym_of_no_codes hid hc)
  | true =>
    by_cases hcode : s.code id = []
    · exact answersLegal_of_fault (exec_esym_of_no_code hid hc hcode)
    · rcases lt_or_ge s.cfg.bbCap (s.bb.length + (s.code id).length) with hgt | hle
      · exact answersLegal_of_fault (exec_esym_of_full hid hc hcode hgt)
      · exact answersLegal_of_complete (exec_esym_of_fits hid hc hcode hle)

theorem exec_drun_answersLegal : AnswersLegal s (exec .drun s) := by
  cases hc : s.codes with
  | false => exact answersLegal_of_fault (exec_drun_of_no_codes hc)
  | true =>
    rcases hw : s.walk s.bb s.dptr with ⟨items, _ | p⟩
    · exact answersLegal_of_fault (exec_drun_of_walk_none hc hw)
    · exact answersLegal_of_complete (exec_drun_of_walk hc hw)

theorem exec_dend_answersLegal : AnswersLegal s (exec .dend s) := by
  cases hc : s.codes with
  | false => exact answersLegal_of_fault (exec_dend_of_no_codes hc)
  | true =>
    by_cases hp : s.dptr = s.root
    · exact answersLegal_of_complete (exec_dend_of_dptr_eq hc hp)
    · exact answersLegal_of_fault (exec_dend_of_dptr_ne hc hp)

theorem exec_bput_answersLegal {n : BitVec 5} {bits : BitVec 16} (h : literalOk n bits = true) :
    AnswersLegal s (exec (.bput n bits) s) := by
  obtain ⟨lit, hlit⟩ := exists_literal_of_literalOk h
  rcases lt_or_ge s.cfg.bbCap (s.bb.length + lit.length) with hgt | hle
  · exact answersLegal_of_fault (exec_bput_of_full hlit hgt)
  · exact answersLegal_of_complete (exec_bput_of_fits hlit hle)

theorem exec_bget_answersLegal {idx : BitVec 26} (h : idx.toNat < s.bb.length) :
    AnswersLegal s (exec (.bget idx) s) :=
  answersLegal_of_complete (exec_read_of_some (.inr (.inr ⟨idx, rfl⟩)) (State.readValue_bget_of_lt h))

theorem exec_ubyte_answersLegal (b : Byte) : AnswersLegal s (exec (.ubyte b) s) := by
  cases hust : s.ust with
  | hdr =>
    rcases lt_or_ge 7 b.toNat with hgt | hle
    · exact answersLegal_of_fault (exec_ubyte_of_bad_header hust hgt)
    · exact answersLegal_of_complete (exec_ubyte_of_header hust hle)
  | data =>
    rcases lt_or_ge s.cfg.bbCap (s.bb.length + 8) with hgt | hle
    · exact answersLegal_of_fault (exec_ubyte_of_full hust hgt)
    · exact answersLegal_of_complete (exec_ubyte_of_fits hust hle)

theorem exec_uend_answersLegal : AnswersLegal s (exec .uend s) := by
  cases hust : s.ust with
  | hdr => exact answersLegal_of_fault (exec_uend_of_hdr hust)
  | data =>
    by_cases hpad : s.pad ≠ 0#3 ∧ s.udat = false
    · exact answersLegal_of_fault (exec_uend_of_no_data hust hpad.1 hpad.2)
    · have hdata : s.pad = 0#3 ∨ s.udat = true := by simpa [or_iff_not_imp_left] using hpad
      exact answersLegal_of_complete (exec_uend_of_data hust hdata)

theorem exec_answersLegal {i : Instr} (h : i.legal s.cfg s.bb.length = true) : AnswersLegal s (exec i s) :=
  match i with
  | .nop => answersLegal_of_complete rfl
  | .csrr _ => exec_csrr_answersLegal (of_decide_eq_true h)
  | .csrw _ _ => exec_csrw_answersLegal h
  | .srst => ⟨_, [], .done, rfl, rfl, nofun⟩
  | .fclr => answersLegal_of_complete rfl
  | .fsym _ _ => exec_fsym_answersLegal h
  | .frd _ _ => exec_frd_answersLegal h
  | .build => exec_build_answersLegal
  | .derive => exec_derive_answersLegal
  | .esym _ _ => exec_esym_answersLegal h
  | .drun => exec_drun_answersLegal
  | .dend => exec_dend_answersLegal
  | .bclr => answersLegal_of_complete rfl
  | .bput _ _ => exec_bput_answersLegal h
  | .bget _ => exec_bget_answersLegal (of_decide_eq_true h)
  | .pack => answersLegal_of_complete rfl
  | .ubyte b => exec_ubyte_answersLegal b
  | .uend => exec_uend_answersLegal

end

/-! A command word is legal when it selects a command and the command is legal (R74). -/

section
variable {s : State} {w : Word}

theorem runWord_of_not_legalWord (h : legalWord s.cfg s.bb.length w = false) :
    runWord w s = raise s .illegalCommand w := by
  cases hd : decode w with
  | error r => exact runWord_of_error hd s
  | ok i =>
    simp only [legalWord, hd] at h
    rw [runWord_of_ok hd, exec_of_not_legal h, decodedWordIsItsEncoding w i hd]

theorem runWord_answersLegal (h : legalWord s.cfg s.bb.length w = true) : AnswersLegal s (runWord w s) := by
  cases hd : decode w with
  | error r => simp [legalWord, hd] at h
  | ok i =>
    simp only [legalWord, hd] at h
    rw [runWord_of_ok hd]
    exact exec_answersLegal h

end

/-! The same on the bits of the word (R186). -/

/-- The word has an operand outside its constraint, `bblen` being BBLEN: a symbol operand that is no symbol, a reserved
register, a write that CSRW does not make, a literal that is too long or has stray bits, an index past BB (R74). -/
def IllegalOperand (c : Config) (bblen : Nat) (w : Word) : Prop :=
  ((opcode w = 0x09#6 ∨ opcode w = 0x0A#6 ∨ opcode w = 0x18#6) ∧
    (w.getLsbD 21 = true ∧ w.extractLsb' 0 21 ≠ 0#21 ∨
      w.getLsbD 21 = false ∧ 2 ^ c.symW ≤ (w.extractLsb' 0 21).toNat)) ∨
  (opcode w = 0x02#6 ∧ 0xE ≤ (w.extractLsb' 0 4).toNat) ∨
  (opcode w = 0x03#6 ∧ ¬(w.extractLsb' 22 4 = 0x3#4 ∧ w.extractLsb' 0 22 = 0#22) ∧
    ¬(w.extractLsb' 22 4 = 0x6#4 ∧ (w.extractLsb' 0 22).toNat < 2 ^ c.symW)) ∨
  (opcode w = 0x29#6 ∧ (16 < (w.extractLsb' 16 5).toNat ∨
    2 ^ (w.extractLsb' 16 5).toNat ≤ (w.extractLsb' 0 16).toNat)) ∨
  (opcode w = 0x2A#6 ∧ bblen ≤ (w.extractLsb' 0 26).toNat)

/-- The opcodes of the commands with an operand constraint. -/
def operandOpcodes : List (BitVec 6) := [0x02#6, 0x03#6, 0x09#6, 0x0A#6, 0x18#6, 0x29#6, 0x2A#6]

section
variable {c : Config} {bblen : Nat} {w : Word}

/-- A word of any other opcode has no operand constraint. -/
theorem not_illegalOperand {op : BitVec 6} (ho : opcode w = op) (hop : op ∉ operandOpcodes) :
    ¬IllegalOperand c bblen w := by
  subst ho
  simp only [operandOpcodes, List.mem_cons, List.not_mem_nil, or_false, not_or] at hop
  simp [IllegalOperand, hop]

theorem illegalOperand_iff_of_formatN {op : BitVec 6} {i j : Instr} (ho : opcode w = op) (hf : formatN w i = .ok j)
    (hop : op ∉ operandOpcodes) (hi : i.legal c bblen = true) :
    IllegalOperand c bblen w ↔ j.legal c bblen = false := by
  obtain ⟨-, rfl⟩ := formatN_ok.1 hf
  exact iff_of_false (not_illegalOperand ho hop) (by simp [hi])

theorem illegalOperand_iff_of_formatS {mk : Bool → BitVec 21 → Instr} {j : Instr}
    (ho : opcode w = 0x09#6 ∨ opcode w = 0x0A#6 ∨ opcode w = 0x18#6) (hf : formatS w mk = .ok j)
    (hmk : ∀ S char, (mk S char).legal c bblen = symbolOk c S char) :
    IllegalOperand c bblen w ↔ j.legal c bblen = false := by
  obtain ⟨-, rfl⟩ := formatS_ok.1 hf
  rw [hmk, symbolOk_eq_false_iff]
  rcases ho with ho | ho | ho <;> simp [IllegalOperand, ho]

/-- The bits of a word that selects a command tell whether the command is legal. -/
theorem illegalOperand_iff_not_legal {i : Instr} (h : decode w = .ok i) :
    IllegalOperand c bblen w ↔ i.legal c bblen = false := by
  rcases decode_ok h with ⟨ho, hf⟩ | ⟨ho, hf⟩ | ⟨ho, hf⟩ | ⟨ho, hf⟩ | ⟨ho, hf⟩ | ⟨ho, hf⟩ | ⟨ho, hf⟩ | ⟨ho, hf⟩ |
    ⟨ho, hf⟩ | ⟨ho, hf⟩ | ⟨ho, hf⟩ | ⟨ho, hf⟩ | ⟨ho, hf⟩ | ⟨ho, hf⟩ | ⟨ho, hf⟩ | ⟨ho, hf⟩ | ⟨ho, hf⟩ | ⟨ho, hf⟩
  · exact illegalOperand_iff_of_formatN ho hf (by decide) rfl
  · obtain ⟨-, rfl⟩ := formatR_ok.1 hf
    simp [IllegalOperand, ho, Instr.legal, Instr.wf, Nat.succ_le_iff]
  · obtain rfl := formatW_ok.1 hf
    simp [IllegalOperand, ho, Instr.legal, Instr.wf, csrWriteOk_eq_false_iff]
  · exact illegalOperand_iff_of_formatN ho hf (by decide) rfl
  · exact illegalOperand_iff_of_formatN ho hf (by decide) rfl
  · exact illegalOperand_iff_of_formatS (.inl ho) hf fun _ _ => rfl
  · exact illegalOperand_iff_of_formatS (.inr (.inl ho)) hf fun _ _ => rfl
  · exact illegalOperand_iff_of_formatN ho hf (by decide) rfl
  · exact illegalOperand_iff_of_formatN ho hf (by decide) rfl
  · exact illegalOperand_iff_of_formatS (.inr (.inr ho)) hf fun _ _ => rfl
  · exact illegalOperand_iff_of_formatN ho hf (by decide) rfl
  · exact illegalOperand_iff_of_formatN ho hf (by decide) rfl
  · exact illegalOperand_iff_of_formatN ho hf (by decide) rfl
  · obtain ⟨-, rfl⟩ := formatL_ok.1 hf
    simp [IllegalOperand, ho, Instr.legal, Instr.wf, literalOk_eq_false_iff]
  · obtain rfl := formatI_ok.1 hf
    simp [IllegalOperand, ho, Instr.legal]
  · exact illegalOperand_iff_of_formatN ho hf (by decide) rfl
  · obtain ⟨-, rfl⟩ := formatB_ok.1 hf
    exact iff_of_false (not_illegalOperand ho (by decide)) nofun
  · exact illegalOperand_iff_of_formatN ho hf (by decide) rfl

/-- A word matches no row exactly when it selects no command (R75). -/
theorem forall_row_not_matches_iff :
    (∀ row ∈ opcodeMap, w &&& row.mask ≠ row.pattern) ↔ ∀ i, decode w ≠ .ok i := by
  constructor
  · intro h i hi
    obtain ⟨row, hrow, -, hmatch⟩ := exists_row_of_encode i
    rw [decodedWordIsItsEncoding w i hi] at hmatch
    exact h row hrow hmatch
  · intro h row hrow hmatch
    obtain ⟨i, hi, -⟩ := (matches_row_iff hrow).1 hmatch
    exact h i hi

theorem legalWord_eq_false_iff :
    legalWord c bblen w = false ↔
      (∀ row ∈ opcodeMap, w &&& row.mask ≠ row.pattern) ∨ IllegalOperand c bblen w := by
  rw [forall_row_not_matches_iff]
  cases hd : decode w with
  | error r => simp [legalWord, hd]
  | ok i =>
    rw [illegalOperand_iff_not_legal hd]
    simp [legalWord, hd]

end

/-- Settles O6: the conditions listed are those of `legalWord`. -/
theorem illegalCommandOnExactlyTheseWords : Obligations.IllegalCommandOnExactlyTheseWords := by
  intro s w rest hs symbolOp S char value n illegal
  have hillegal : illegal ↔ legalWord s.cfg s.bb.length w = false := legalWord_eq_false_iff.symm
  rw [step_cmd hs, hillegal, Bool.not_eq_false]
  refine ⟨fun h => runWord_of_not_legalWord h, fun h t items ht hout => ?_⟩
  obtain ⟨t', items', term, ht', hout', hterm⟩ := runWord_answersLegal (s := { s with input := rest }) h
  cases ht'.symm.trans ht
  exact hterm (terminal_eq_of_out_eq (hout'.symm.trans hout))

end Sys2Proof.Machine
